-- ==== Sys2Proof/Word.lean ====
section
/-! DEFINITION. The fixed widths of QCORE (spec/00_scope.md R6, spec/10_state.md R21 to R23, R26, R28). -/

namespace Sys2Proof

/-- One byte of a buffer (R10, R26). -/
abbrev Byte := BitVec 8

/-- The machine word, 64 bits (R6, R21); also the width of every host access (R55). -/
abbrev Word := BitVec 64

/-- What a field register holds: any u128 (R22). -/
abbrev FieldWord := BitVec 128

/-- What a scalar register holds: any u256 (R23). -/
abbrev Scalar := BitVec 256

/-- A command word, 32 bits (R70, R71). -/
abbrev CmdWord := BitVec 32

/-- A register number, 0 to 7 (R6: `NW`, `NF`, `NS` = 8; R73). -/
abbrev RegNum := Fin 8

end Sys2Proof
end

