-- ==== Sys2Proof/Machine/Flags.lean ====
section
/-! DEFINITION. Carry and borrow: the full adder and subtractor of a word and of n words, each with the bit that `CF`
holds (spec/10_state.md R25, spec/40_constant_time.md R103, R104, spec/42_scalar.md R151, R152). -/

namespace Sys2Proof.Machine

/-- `addWithCarry(carryIn, a, b) -> (carryOut, sum)` (R103). -/
def addWithCarry (carryIn : Bool) (a b : Word) : Bool × Word :=
  let t := a.toNat + b.toNat + carryIn.toNat
  (t / 2 ^ 64 != 0, BitVec.ofNat 64 t)

/-- `subWithBorrow(borrowIn, a, b) -> (borrowOut, diff)` (R104). -/
def subWithBorrow (borrowIn : Bool) (a b : Word) : Bool × Word :=
  let t : Int := a.toNat - b.toNat - borrowIn.toNat
  (decide (t < 0), BitVec.ofInt 64 t)

/-- `mp_add(a, b, n) -> (sum, carry)` on values of `k` bits (R151; k = 64n, n = 4 or 8). -/
def mpAdd {k : Nat} (a b : BitVec k) : BitVec k × Bool :=
  let t := a.toNat + b.toNat
  (BitVec.ofNat k t, t / 2 ^ k != 0)

/-- `mp_sub(a, b, n) -> (diff, borrow)` on values of `k` bits (R152). -/
def mpSub {k : Nat} (a b : BitVec k) : BitVec k × Bool :=
  let t : Int := a.toNat - b.toNat
  (BitVec.ofInt k t, decide (t < 0))

/-- `words(w0, w1, ...)`, the value of a little-word-order list of words (R10). -/
def wordsValue : List Word → Nat
  | [] => 0
  | w :: rest => w.toNat + 2 ^ 64 * wordsValue rest

/-- The ripple chain of `addWithCarry` steps from word 0 up: R151 says that `mp_add` equals it. -/
def rippleAdd : Bool → List Word → List Word → List Word × Bool
  | c, a :: as, b :: bs =>
    let r := addWithCarry c a b
    let t := rippleAdd r.1 as bs
    (r.2 :: t.1, t.2)
  | c, _, _ => ([], c)

/-- The ripple chain of `subWithBorrow` steps from word 0 up: R152 says that `mp_sub` equals it. -/
def rippleSub : Bool → List Word → List Word → List Word × Bool
  | c, a :: as, b :: bs =>
    let r := subWithBorrow c a b
    let t := rippleSub r.1 as bs
    (r.2 :: t.1, t.2)
  | c, _, _ => ([], c)

/-- All ones where the bit is one, else zero: the mask of the branch-free corrections (R155, R157, R161). -/
def maskOf (b : Bool) (k : Nat) : BitVec k := 0#k - BitVec.ofNat k b.toNat

end Sys2Proof.Machine
end

