-- ==== Sys2Proof/Syntax.lean ====
section
/-! DEFINITION. The commands of QCORE: one constructor per row of spec/opcode_table.json (spec/30_encoding.md R75). -/

namespace Sys2Proof

/-- The twenty-five commands (R75). `rd`, `ra`, `rb` are register numbers (R73): the register file is the one of the
opcode. `cin` is the two-bit carry-in selector of format `R3C` (R74). -/
inductive Instr where
  /-- `CTNZ Wd, Wa` (R100) -/
  | ctnz (rd ra : RegNum)
  /-- `CTZ Wd, Wa` (R101) -/
  | ctz (rd ra : RegNum)
  /-- `CTLT Wd, Wa, Wb` (R102) -/
  | ctlt (rd ra rb : RegNum)
  /-- `ADC Wd, Wa, Wb, cin` (R103) -/
  | adc (rd ra rb : RegNum) (cin : BitVec 2)
  /-- `SBB Wd, Wa, Wb, cin` (R104) -/
  | sbb (rd ra rb : RegNum) (cin : BitVec 2)
  /-- `FRED Fd, Fa` (R121) -/
  | fred (rd ra : RegNum)
  /-- `FADD Fd, Fa, Fb` (R122) -/
  | fadd (rd ra rb : RegNum)
  /-- `FSUB Fd, Fa, Fb` (R123) -/
  | fsub (rd ra rb : RegNum)
  /-- `FNEG Fd, Fa` (R124) -/
  | fneg (rd ra : RegNum)
  /-- `FMUL Fd, Fa, Fb` (R125) -/
  | fmul (rd ra rb : RegNum)
  /-- `FSQR Fd, Fa` (R126) -/
  | fsqr (rd ra : RegNum)
  /-- `FHALF Fd, Fa` (R127) -/
  | fhalf (rd ra : RegNum)
  /-- `FPOW125 Fd, Fa` (R128) -/
  | fpow125 (rd ra : RegNum)
  /-- `FINV Fd, Fa` (R129) -/
  | finv (rd ra : RegNum)
  /-- `MPADD Sd, Sa, Sb` (R153) -/
  | mpadd (rd ra rb : RegNum)
  /-- `MPSUB Sd, Sa, Sb` (R154) -/
  | mpsub (rd ra rb : RegNum)
  /-- `SADDM Sd, Sa, Sb` (R156) -/
  | saddm (rd ra rb : RegNum)
  /-- `SSUBM Sd, Sa, Sb` (R155) -/
  | ssubm (rd ra rb : RegNum)
  /-- `MMUL Sd, Sa, Sb` (R157) -/
  | mmul (rd ra rb : RegNum)
  /-- `TOMONT Sd, Sa` (R158) -/
  | tomont (rd ra : RegNum)
  /-- `FROMMONT Sd, Sa` (R159) -/
  | frommont (rd ra : RegNum)
  /-- `SMODR Sd, Sa` (R160) -/
  | smodr (rd ra : RegNum)
  /-- `MKODD Sd, Sa` (R161) -/
  | mkodd (rd ra : RegNum)
  /-- `SIGN` (R186) -/
  | sign
  /-- `VERIFY` (R188) -/
  | verify
deriving DecidableEq, Repr

end Sys2Proof
end

