-- ==== Sys2Proof/WellFormed.lean ====
section
/-! DEFINITION. Which terms of `Instr` a command word can stand for (spec/30_encoding.md R74, R76). -/

namespace Sys2Proof

/-- A carry-in selector an assembler may write: 3 is illegal (R74). -/
def legalCin (cin : BitVec 2) : Bool := cin != 3#2

/-- The check on a whole command. Register numbers are legal by their type (R73), so only `cin` can be ill-formed. -/
def Instr.wellFormed : Instr → Bool
  | .ctnz _ _ => true
  | .ctz _ _ => true
  | .ctlt _ _ _ => true
  | .adc _ _ _ cin => legalCin cin
  | .sbb _ _ _ cin => legalCin cin
  | .fred _ _ => true
  | .fadd _ _ _ => true
  | .fsub _ _ _ => true
  | .fneg _ _ => true
  | .fmul _ _ _ => true
  | .fsqr _ _ => true
  | .fhalf _ _ => true
  | .fpow125 _ _ => true
  | .finv _ _ => true
  | .mpadd _ _ _ => true
  | .mpsub _ _ _ => true
  | .saddm _ _ _ => true
  | .ssubm _ _ _ => true
  | .mmul _ _ _ => true
  | .tomont _ _ => true
  | .frommont _ _ => true
  | .smodr _ _ => true
  | .mkodd _ _ => true
  | .sign => true
  | .verify => true

end Sys2Proof
end

