-- ==== Sys2Proof/Decode.lean ====
section
/-! DEFINITION. The command word format, the opcode map, the decoder and the encoder (spec/30_encoding.md R70 to R77,
spec/60_exceptions.md R210, R212, R213). -/

namespace Sys2Proof

/-- The causes of a refusal (R210). -/
inductive RefuseCode where
  /-- `ILLEGAL_OPCODE`: `op` is not one of the 25 opcodes. -/
  | illegalOpcode
  /-- `RESERVED_NONZERO`: the upper half of the written value, or a bit the format requires zero, is not zero. -/
  | reservedNonzero
  /-- `ILLEGAL_CIN`: `cin` = 3 in format `R3C`. -/
  | illegalCin
deriving DecidableEq, Repr

/-- The code recorded in `STATUS.ECODE` (R210). -/
def RefuseCode.bits : RefuseCode → Byte
  | .illegalOpcode => 1#8
  | .reservedNonzero => 2#8
  | .illegalCin => 3#8

/-- The four formats (R72). -/
inductive Format where
  | r3
  | r3c
  | r2
  | z
deriving DecidableEq, Repr

/-- The bits of a command word that the opcode and the must-be-zero fields of a format fix (R72). -/
def Format.mask : Format → CmdWord
  | .r3 => 0xFF888FFF#32
  | .r3c => 0xFF8883FF#32
  | .r2 => 0xFF88FFFF#32
  | .z => 0xFFFFFFFF#32

/-- One row of the opcode map (R75): the opcode, its format and the command its fields make. -/
structure OpRow where
  op : Byte
  format : Format
  build : RegNum → RegNum → RegNum → BitVec 2 → Instr

/-- Group 0x1_, constant-time primitives (R75). -/
def constantTimeRows : List OpRow :=
  [ ⟨0x10#8, .r2, fun d a _ _ => .ctnz d a⟩,
    ⟨0x11#8, .r2, fun d a _ _ => .ctz d a⟩,
    ⟨0x12#8, .r3, fun d a b _ => .ctlt d a b⟩,
    ⟨0x13#8, .r3c, fun d a b c => .adc d a b c⟩,
    ⟨0x14#8, .r3c, fun d a b c => .sbb d a b c⟩ ]

/-- Group 0x2_, the field engine (R75). -/
def fieldRows : List OpRow :=
  [ ⟨0x20#8, .r2, fun d a _ _ => .fred d a⟩,
    ⟨0x21#8, .r3, fun d a b _ => .fadd d a b⟩,
    ⟨0x22#8, .r3, fun d a b _ => .fsub d a b⟩,
    ⟨0x23#8, .r2, fun d a _ _ => .fneg d a⟩,
    ⟨0x24#8, .r3, fun d a b _ => .fmul d a b⟩,
    ⟨0x25#8, .r2, fun d a _ _ => .fsqr d a⟩,
    ⟨0x26#8, .r2, fun d a _ _ => .fhalf d a⟩,
    ⟨0x27#8, .r2, fun d a _ _ => .fpow125 d a⟩,
    ⟨0x28#8, .r2, fun d a _ _ => .finv d a⟩ ]

/-- Group 0x3_, the scalar engine (R75). -/
def scalarRows : List OpRow :=
  [ ⟨0x30#8, .r3, fun d a b _ => .mpadd d a b⟩,
    ⟨0x31#8, .r3, fun d a b _ => .mpsub d a b⟩,
    ⟨0x32#8, .r3, fun d a b _ => .saddm d a b⟩,
    ⟨0x33#8, .r3, fun d a b _ => .ssubm d a b⟩,
    ⟨0x34#8, .r3, fun d a b _ => .mmul d a b⟩,
    ⟨0x35#8, .r2, fun d a _ _ => .tomont d a⟩,
    ⟨0x36#8, .r2, fun d a _ _ => .frommont d a⟩,
    ⟨0x37#8, .r2, fun d a _ _ => .smodr d a⟩,
    ⟨0x38#8, .r2, fun d a _ _ => .mkodd d a⟩ ]

/-- Group 0x4_, the protocol (R75). -/
def protocolRows : List OpRow :=
  [ ⟨0x40#8, .z, fun _ _ _ _ => .sign⟩,
    ⟨0x41#8, .z, fun _ _ _ _ => .verify⟩ ]

/-- The opcode map (R75). -/
def opcodeTable : List OpRow := constantTimeRows ++ fieldRows ++ scalarRows ++ protocolRows

/-- `op`, bits 31:24 (R71). -/
def opField (c : CmdWord) : Byte := c.extractLsb' 24 8

/-- The register number in the three bits from bit `lo` (R71, R73: unsigned, used as it is). -/
def regField (c : CmdWord) (lo : Nat) : RegNum := (c.extractLsb' lo 3).toFin

/-- `cin`, bits 11:10 (R71). -/
def cinField (c : CmdWord) : BitVec 2 := c.extractLsb' 10 2

/-- The word `op << 24` that a word of opcode `op` equals under its format's mask (R72). -/
def opWord (op : Byte) : CmdWord := op.setWidth 32 <<< 24

/-- What a `CMD` value decodes to: a command, or the one code it is refused with (R77). -/
inductive Decoded where
  | command (i : Instr)
  | refuse (c : RefuseCode)
deriving DecidableEq, Repr

/-- The last two tests of R76 on the row its opcode selects: the must-be-zero bits, then `cin`. -/
def decodeRow (r : OpRow) (c : CmdWord) : Decoded :=
  if c &&& r.format.mask ≠ opWord r.op then .refuse .reservedNonzero
  else if r.format = .r3c ∧ legalCin (cinField c) = false then .refuse .illegalCin
  else .command (r.build (regField c 20) (regField c 16) (regField c 12) (cinField c))

/-- The decoding of a 32-bit command word: the opcode test comes first (R76). -/
def decodeWord (c : CmdWord) : Decoded :=
  match opcodeTable.find? (fun r => r.op == opField c) with
  | none => .refuse .illegalOpcode
  | some r => decodeRow r c

/-- The decoding of a whole 64-bit `CMD` value: the upper half is tested before anything else (R70, R76, R212). -/
def decodeCmd (v : Word) : Decoded :=
  if v.extractLsb' 32 32 ≠ 0#32 then .refuse .reservedNonzero else decodeWord (v.extractLsb' 0 32)

/-- The host's question: the command in a table row's bits, `none` where the decoder refuses. The bits above `nbits`
are zero; the command word is the low half of the `CMD` value (R70). -/
def decodeTableWord (nbits w : Nat) : Option Instr :=
  match decodeCmd (BitVec.ofNat 64 (w % 2 ^ nbits)) with
  | .command i => some i
  | .refuse _ => none

/-- `op << 24 | rd << 20 | ra << 16 | rb << 12 | cin << 10` (R75). -/
def packWord (op : Byte) (rd ra rb : RegNum) (cin : BitVec 2) : CmdWord :=
  opWord op ||| BitVec.ofNat 32 rd.val <<< 20 ||| BitVec.ofNat 32 ra.val <<< 16 |||
    BitVec.ofNat 32 rb.val <<< 12 ||| cin.setWidth 32 <<< 10

/-- The command word of a command, its unused fields zero (R75). -/
def encode : Instr → CmdWord
  | .ctnz d a => packWord 0x10#8 d a 0 0#2
  | .ctz d a => packWord 0x11#8 d a 0 0#2
  | .ctlt d a b => packWord 0x12#8 d a b 0#2
  | .adc d a b c => packWord 0x13#8 d a b c
  | .sbb d a b c => packWord 0x14#8 d a b c
  | .fred d a => packWord 0x20#8 d a 0 0#2
  | .fadd d a b => packWord 0x21#8 d a b 0#2
  | .fsub d a b => packWord 0x22#8 d a b 0#2
  | .fneg d a => packWord 0x23#8 d a 0 0#2
  | .fmul d a b => packWord 0x24#8 d a b 0#2
  | .fsqr d a => packWord 0x25#8 d a 0 0#2
  | .fhalf d a => packWord 0x26#8 d a 0 0#2
  | .fpow125 d a => packWord 0x27#8 d a 0 0#2
  | .finv d a => packWord 0x28#8 d a 0 0#2
  | .mpadd d a b => packWord 0x30#8 d a b 0#2
  | .mpsub d a b => packWord 0x31#8 d a b 0#2
  | .saddm d a b => packWord 0x32#8 d a b 0#2
  | .ssubm d a b => packWord 0x33#8 d a b 0#2
  | .mmul d a b => packWord 0x34#8 d a b 0#2
  | .tomont d a => packWord 0x35#8 d a 0 0#2
  | .frommont d a => packWord 0x36#8 d a 0 0#2
  | .smodr d a => packWord 0x37#8 d a 0 0#2
  | .mkodd d a => packWord 0x38#8 d a 0 0#2
  | .sign => packWord 0x40#8 0 0 0 0#2
  | .verify => packWord 0x41#8 0 0 0 0#2

/-- The 64-bit value a host writes to `CMD` to issue a command: upper half zero (R70). -/
def cmdValue (i : Instr) : Word := (encode i).setWidth 64

end Sys2Proof
end

