-- ==== Sys2Proof/Config.lean ====
section
/-! DEFINITION. What an implementation of QCORE fixes (spec/00_scope.md R6 to R8, spec/43_schnorrq.md R180, R181)
and the free values: constants without a body for what the spec leaves unspecified (R12, R120, R231). -/

namespace Sys2Proof

/-- The prime of the field engine, 2^127 − 1 (R6). -/
def Config.P : Nat := 2 ^ 127 - 1

/-- The three curve-order constants, parameters of the model (R7): `ORDER`, `RSQ`, `NINV`. -/
structure CurveParams where
  /-- `ORDER`, the source's "order r". -/
  order : Scalar
  /-- `RSQ`, the source's R′ = R² mod order. -/
  rsq : Scalar
  /-- `NINV`, the source's r′ ≡ −order⁻¹ (mod 2²⁵⁶). -/
  ninv : Scalar
deriving DecidableEq, Repr

/-- The constraints of R7 that the results of the commands rest on: all of them but the primality of `ORDER`, of which
`1 < ORDER` is enough. A statement for any constants asks for these alone, so it holds under `Valid` too. Log 18. -/
structure CurveParams.Relations (c : CurveParams) : Prop where
  one_lt : 1 < c.order.toNat
  odd : c.order.toNat % 2 = 1
  le : c.order.toNat ≤ 2 ^ 246
  rsq_eq : c.rsq.toNat = (2 ^ 256) ^ 2 % c.order.toNat
  ninv_eq : (c.ninv.toNat * c.order.toNat) % 2 ^ 256 = 2 ^ 256 - 1

/-- Every constraint that R7 has a model take as a hypothesis on the constants: the relations, and `ORDER` a prime. -/
structure CurveParams.Valid (c : CurveParams) : Prop extends CurveParams.Relations c where
  prime : c.order.toNat.Prime

/-- The default values of R7. PRESUMED by the spec itself (its mark: from general knowledge); unsafe, log 6. -/
def Config.curve : CurveParams where
  order := 0x0029CBC14E5E0A72_F05397829CBC14E5_DFBD004DFE0F7999_2FB2540EC7768CE7#256
  rsq := 0x0006A5F16AC8F9D3_3D01B7C72136F61C_173EA5AAEA6B387D_C81DB8795FF3D621#256
  ninv := 0xF32702FDAFC1C074_BCE409ED76B5DB21_D75E78B8D1FCDCF3_E12FE5F079BC3929#256

/-- `PK_TAG_BYTE`, the public-key byte whose top bit VERIFY tests: 31 (R8, decision D29). Log 7. -/
def Config.pkTagByte : Fin 32 := 31

/-- `BASE`, the bus address of the host window, left to the platform (R8, R50): no value is assumed. -/
opaque Config.base : Nat

/-- The five external functions over a type of points (R180, R181): pure, total, with no law assumed. -/
structure Externals (Point : Type) where
  /-- `Hash(input, n)`: the length of the answer is `n` (R180). -/
  hash : List Byte → (n : Nat) → Vector Byte n
  /-- `FixedBaseMul : u256 -> Point`. -/
  fixedBaseMul : Scalar → Point
  /-- `Encode : Point -> 32 bytes`. -/
  encode : Point → Vector Byte 32
  /-- `Decode : 32 bytes -> Point or failure`. -/
  decode : Vector Byte 32 → Option Point
  /-- `DoubleScalarMulVerify : u256 -> u256 -> Point -> Point or failure`. -/
  doubleScalarMulVerify : Scalar → Scalar → Point → Option Point

/-- The elements of the abstract type `Point` but one; nothing is known of it (R181, R27). -/
opaque Config.PointRest : Type

/-- The abstract type `Point` (R181). `FixedBaseMul` is total, so it has an element; `none` names that one, and any
nonempty type is of this form, so no generality is lost. DEDUCED, safe, log 8. -/
abbrev Config.Point : Type := Option Config.PointRest

/-- The hash primitive of the machine (R180): a parameter, no body. -/
opaque Config.hash : List Byte → (n : Nat) → Vector Byte n

/-- The fixed-base multiplication of the machine (R181): a parameter, no body. -/
opaque Config.fixedBaseMul : Scalar → Config.Point

/-- The point encoder of the machine (R181): a parameter, no body. -/
opaque Config.encodePoint : Config.Point → Vector Byte 32

/-- The point decoder of the machine (R181): a parameter, no body. -/
opaque Config.decodePoint : Vector Byte 32 → Option Config.Point

/-- The double-scalar multiplication of the machine (R181): a parameter, no body. -/
opaque Config.doubleScalarMulVerify : Scalar → Scalar → Config.Point → Option Config.Point

/-- The machine's external primitives, bundled for SIGN and VERIFY. -/
def Config.externals : Externals Config.Point where
  hash := Config.hash
  fixedBaseMul := Config.fixedBaseMul
  encode := Config.encodePoint
  decode := Config.decodePoint
  doubleScalarMulVerify := Config.doubleScalarMulVerify

/-- Free value: the `n`-th unspecified u128 that a field command writes when an operand is outside [0, P)
(R120, spec/93_implementation_defined.md U2). Log 4. -/
opaque Config.freeField : Nat → FieldWord

/-- Free value: what `W[i]` holds after the reset of draw `n` (R231). Log 3. -/
opaque Config.resetWord : Nat → RegNum → Word

/-- Free value: what `F[i]` holds after the reset of draw `n` (R231). Log 3. -/
opaque Config.resetField : Nat → RegNum → FieldWord

/-- Free value: what `S[i]` holds after the reset of draw `n` (R231). Log 3. -/
opaque Config.resetScalar : Nat → RegNum → Scalar

/-- Free value: what byte `i` of `SUBSEED` holds after the reset of draw `n` (R231). Log 3. -/
opaque Config.resetSubseed : Nat → Fin 32 → Byte

/-- Free value: what byte `i` of `PUBKEY` holds after the reset of draw `n` (R231). Log 3. -/
opaque Config.resetPubkey : Nat → Fin 32 → Byte

/-- Free value: what byte `i` of `DIGEST` holds after the reset of draw `n` (R231). Log 3. -/
opaque Config.resetDigest : Nat → Fin 32 → Byte

/-- Free value: what byte `i` of `SIG` holds after the reset of draw `n` (R231). Log 3. -/
opaque Config.resetSig : Nat → Fin 64 → Byte

end Sys2Proof
end

