-- ==== Sys2Proof/Machine/State.lean ====
section
/-! DEFINITION. The architectural state of QCORE (spec/10_state.md R20 to R32), the host's port, the reasons a step
can stop, and the state after reset (spec/70_reset_and_hazards.md R230, R231). -/

namespace Sys2Proof.Machine

/-- One move of the host (R20, R52, R53, R230): an access to the host window at byte offset `off`, `width` bytes wide,
or the external reset. Only some of these accesses have a meaning (R55). -/
inductive HostEvent where
  /-- `MemRead(off, width)` -/
  | read (off width : Nat)
  /-- `MemWrite(off, width, v)` -/
  | write (off width : Nat) (v : Word)
  /-- the reset, applied from outside (R230) -/
  | reset
deriving DecidableEq, Repr

/-- The whole state of R32, and three fields of the model's own (`port`, `reply`, `draws`; logs 1, 2, 4). -/
structure State where
  /-- `W[0..7]` (R21) -/
  wreg : Vector Word 8
  /-- `F[0..7]` (R22) -/
  freg : Vector FieldWord 8
  /-- `S[0..7]` (R23) -/
  sreg : Vector Scalar 8
  /-- `CF` (R25) -/
  cf : Bool
  /-- `SUBSEED` (R26) -/
  subseed : Vector Byte 32
  /-- `PUBKEY` (R26) -/
  pubkey : Vector Byte 32
  /-- `DIGEST` (R26) -/
  digest : Vector Byte 32
  /-- `SIG` (R26) -/
  sig : Vector Byte 64
  /-- `STATUS.ERR` (R28) -/
  err : Bool
  /-- `STATUS.VOK` (R28) -/
  vok : Bool
  /-- `STATUS.ECODE` (R28, R210) -/
  ecode : Byte
  /-- `ECMD` (R28) -/
  ecmd : Word
  /-- MODEL'S OWN: the host's moves still to come, in issue order (R58); each step serves the first. -/
  port : List HostEvent
  /-- MODEL'S OWN: what the last move returned to the host: the word of a read, nothing for any other move (R52). -/
  reply : Option Word
  /-- MODEL'S OWN: how many free values have been drawn (R12, the model's "draw"). -/
  draws : Nat
deriving DecidableEq, Repr

/-- QCORE has no fault: nothing stops the machine (R215, R217). The type has no constructor. -/
inductive Fault where
deriving DecidableEq, Repr

/-- Why a step can be refused. -/
inductive Refusal where
  /-- Raised by no meaning: the mark of an instruction that has no meaning yet. Safe: the run stops. -/
  | notModelled (mnemonic : String)
  /-- Raised by the service of a host access that is not an aligned 64-bit access to a mapped offset: the spec gives it
  no meaning and a model refuses it (R55, spec/93_implementation_defined.md U8). Safe: the run stops. -/
  | hostProtocolViolation (off width : Nat)
deriving DecidableEq, Repr

/-- The machine right after the reset that takes draw `n`, with no host move to come: the values R231 gives, and a free
value in every register and buffer byte it leaves unspecified (DESIGN CHOICE, log 3). -/
def State.afterReset (n : Nat) : State where
  wreg := Vector.ofFn (Config.resetWord n)
  freg := Vector.ofFn (Config.resetField n)
  sreg := Vector.ofFn (Config.resetScalar n)
  cf := false
  subseed := Vector.ofFn (Config.resetSubseed n)
  pubkey := Vector.ofFn (Config.resetPubkey n)
  digest := Vector.ofFn (Config.resetDigest n)
  sig := Vector.ofFn (Config.resetSig n)
  err := false
  vok := false
  ecode := 0#8
  ecmd := 0#64
  port := []
  reply := none
  draws := n + 1

/-- The machine right after reset (R231). -/
def State.reset : State := State.afterReset 0

end Sys2Proof.Machine
end

