-- ==== Sys2Proof/Machine/Operands.lean ====
section
/-! DEFINITION. The operand forms: register operands of the three files, the carry-in selector, the range precondition
of the field engine (spec/30_encoding.md R73, R74, spec/41_field.md R120). -/

namespace Sys2Proof.Machine

/-- `W[i]` (R21). -/
def State.readW (s : State) (i : RegNum) : Word := s.wreg[i]

/-- `F[i]` (R22). -/
def State.readF (s : State) (i : RegNum) : FieldWord := s.freg[i]

/-- `S[i]` (R23). -/
def State.readS (s : State) (i : RegNum) : Scalar := s.sreg[i]

/-- What the `cin` field selects: the constant 0, the constant 1, the current `CF`; 3 selects nothing (R74). -/
def carryIn (cin : BitVec 2) (cf : Bool) : Option Bool :=
  if cin = 0#2 then some false
  else if cin = 1#2 then some true
  else if cin = 2#2 then some cf
  else none

/-- A canonical field value, in [0, P) (R13, R120). -/
def canonicalField (a : FieldWord) : Bool := decide (a.toNat < Config.P)

end Sys2Proof.Machine
end

