-- ==== Sys2Proof/Machine/Ops.lean ====
section
/-! DEFINITION. The shared operations on the state: the one write of each register file, flag and buffer, the result of
a field command, taking the `Refused` exception and clearing its record, `STATUS`, and the external reset. -/

namespace Sys2Proof.Machine

/-- `W[i] <- v` (R11, R21). -/
def State.writeW (s : State) (i : RegNum) (v : Word) : State := { s with wreg := s.wreg.set i v }

/-- `F[i] <- v` (R11, R22). -/
def State.writeF (s : State) (i : RegNum) (v : FieldWord) : State := { s with freg := s.freg.set i v }

/-- `S[i] <- v` (R11, R23). -/
def State.writeS (s : State) (i : RegNum) (v : Scalar) : State := { s with sreg := s.sreg.set i v }

/-- `CF <- b` (R25). -/
def State.writeCF (s : State) (b : Bool) : State := { s with cf := b }

/-- `SIG[0:64] <- b` (R26). -/
def State.writeSig (s : State) (b : Vector Byte 64) : State := { s with sig := b }

/-- `STATUS.VOK <- b` (R28, R188). -/
def State.writeVOK (s : State) (b : Bool) : State := { s with vok := b }

/-- The next draw of an unspecified value is taken (R12). -/
def State.drawn (s : State) : State := { s with draws := s.draws + 1 }

/-- The end of a field command other than FRED: the exact value where its operands are canonical, else an unspecified
u128, the command completing all the same (R120, spec/93_implementation_defined.md U2). -/
def State.writeFieldResult (s : State) (rd : RegNum) (canonical : Bool) (v : FieldWord) : State :=
  if canonical then s.writeF rd v else s.drawn.writeF rd (Config.freeField s.draws)

/-- TAKING THE EXCEPTION: `raise Refused(code)` for a `CMD` write of value `v` (R211): the first refusal is recorded,
a later one changes nothing while `ERR` is 1. -/
def State.raiseRefused (s : State) (code : RefuseCode) (v : Word) : State :=
  if s.err then s else { s with err := true, ecode := code.bits, ecmd := v }

/-- THE RETURN FROM IT: the host's acknowledgement clears `ERR`, `ECODE` and `ECMD` (R28, R214). -/
def State.clearRefused (s : State) : State := { s with err := false, ecode := 0#8, ecmd := 0#64 }

/-- The value of `STATUS`, assembled from its fields, reserved bits zero (R28, R52). -/
def State.status (s : State) : Word :=
  BitVec.ofNat 64 s.err.toNat ||| BitVec.ofNat 64 s.vok.toNat <<< 1 ||| BitVec.ofNat 64 s.cf.toNat <<< 2 |||
    s.ecode.setWidth 64 <<< 8

/-- A host write of `v` to `STATUS`: with bit 0 set it clears the error record, else nothing happens (R28). -/
def State.writeStatus (s : State) (v : Word) : State := if v.getLsbD 0 then s.clearRefused else s

/-- The external reset (R230, R231): the values of `State.afterReset` with a fresh draw for all that is unspecified;
the host's moves still to come stay. -/
def State.applyReset (s : State) : State := { State.afterReset s.draws with port := s.port }

end Sys2Proof.Machine
end

