-- ==== Sys2Proof/Machine/ConstantTime.lean ====
section
/-! DEFINITION. The meanings of CTNZ, CTZ, CTLT, ADC, SBB (spec/40_constant_time.md R100 to R104). -/

namespace Sys2Proof.Machine

/-- The bit `isNonZero` derives from `x | (0 − x)` (R100). -/
def nonZeroBit (x : Word) : Word := (x ||| (0#64 - x)) >>> 63

/-- The bit `isLessThan` derives from `x ^ ((x^y) | ((x−y)^y))` (R102). -/
def lessThanBit (x y : Word) : Word := (x ^^^ ((x ^^^ y) ||| ((x - y) ^^^ y))) >>> 63

/-- CTNZ (R100). -/
def execCtnz (rd ra : RegNum) (s : State) : Host.Outcome State Fault Refusal :=
  .next (s.writeW rd (nonZeroBit (s.readW ra)))

/-- CTZ (R101). -/
def execCtz (rd ra : RegNum) (s : State) : Host.Outcome State Fault Refusal :=
  .next (s.writeW rd (1#64 ^^^ nonZeroBit (s.readW ra)))

/-- CTLT (R102). -/
def execCtlt (rd ra rb : RegNum) (s : State) : Host.Outcome State Fault Refusal :=
  .next (s.writeW rd (lessThanBit (s.readW ra) (s.readW rb)))

/-- ADC (R103). The selector 3 is no command: it is refused as R74 says, with the `CMD` value it would have. -/
def execAdc (rd ra rb : RegNum) (cin : BitVec 2) (s : State) : Host.Outcome State Fault Refusal :=
  match carryIn cin s.cf with
  | some ci =>
    let r := addWithCarry ci (s.readW ra) (s.readW rb)
    .next ((s.writeW rd r.2).writeCF r.1)
  | none => .next (s.raiseRefused .illegalCin (cmdValue (.adc rd ra rb cin)))

/-- SBB (R104). The selector 3 is no command: it is refused as R74 says, with the `CMD` value it would have. -/
def execSbb (rd ra rb : RegNum) (cin : BitVec 2) (s : State) : Host.Outcome State Fault Refusal :=
  match carryIn cin s.cf with
  | some bi =>
    let r := subWithBorrow bi (s.readW ra) (s.readW rb)
    .next ((s.writeW rd r.2).writeCF r.1)
  | none => .next (s.raiseRefused .illegalCin (cmdValue (.sbb rd ra rb cin)))

end Sys2Proof.Machine
end

