-- ==== Sys2Proof/Machine/FieldMath.lean ====
section
/-! DEFINITION. The functions of the prime-field engine (spec/41_field.md R121 to R129), on what a field register holds. -/

namespace Sys2Proof.Machine

/-- `P` as a 128-bit value; the constant `CONST_P` (R30). -/
def primeWord : FieldWord := BitVec.ofNat 128 Config.P

/-- `reduce(a)`: subtract P, and add it back if that borrowed (R121, the borrow form: spec/90_conflicts.md C6). -/
def fieldReduce (a : FieldWord) : FieldWord :=
  let t := a - primeWord
  let borrow := decide (a.toNat < primeWord.toNat)
  if borrow then t + primeWord else t

/-- `add(a,b)` on canonical operands: sum, fold bit 127 back in, mask, reduce (R122). -/
def fieldAdd (a b : FieldWord) : FieldWord :=
  let t := a + b
  let t := t + t >>> 127
  let t := t &&& primeWord
  fieldReduce t

/-- `sub(a,b)` on canonical operands: wrapped difference, fold the borrow, mask, reduce (R123). -/
def fieldSub (a b : FieldWord) : FieldWord :=
  let t := a - b
  let t := t - t >>> 127
  let t := t &&& primeWord
  fieldReduce t

/-- `negate(a)` on a canonical operand: P − a, then the final correction (R124, spec/90_conflicts.md C7). -/
def fieldNeg (a : FieldWord) : FieldWord := fieldReduce (primeWord - a)

/-- The Mersenne reduction of an exact product below 2^254: split at bit 127, add the halves, reduce (R125). -/
def foldProduct (prod : Nat) : FieldWord :=
  let lo := prod % 2 ^ 127
  let hi := prod / 2 ^ 127
  fieldReduce (BitVec.ofNat 128 (lo + hi))

/-- `multiply(a,b)` on canonical operands (R125). -/
def fieldMul (a b : FieldWord) : FieldWord := foldProduct (a.toNat * b.toNat)

/-- `square(a)` on a canonical operand (R126). -/
def fieldSqr (a : FieldWord) : FieldWord := foldProduct (a.toNat * a.toNat)

/-- `halve(a)` on a canonical operand: P is added under a mask made of the low bit, then one shift right (R127). -/
def fieldHalve (a : FieldWord) : FieldWord :=
  let mask := 0#128 - BitVec.ofNat 128 (a.getLsbD 0).toNat
  let t := a + (primeWord &&& mask)
  t >>> 1

/-- a^(2^k − 1) mod m, one squaring and one multiplication for each of the k one-bits of the exponent: the value
R128 defines FPOW125 by, in a form that evaluates (`powOnes_eq` in Laws/Field.lean). -/
def powOnes (a m : Nat) : Nat → Nat
  | 0 => 1 % m
  | k + 1 => (powOnes a m k ^ 2 * a) % m

/-- `power_2^125_minus_1(a)` by its value (R128, decision D17). -/
def fieldPow125 (a : FieldWord) : FieldWord := BitVec.ofNat 128 (powOnes a.toNat Config.P 125)

/-- `invert(a)`: a^(2^125 − 1), two squarings, one multiplication by a (R129); 0 for a = 0
(spec/93_implementation_defined.md U1). -/
def fieldInvert (a : FieldWord) : FieldWord :=
  let t := (fieldPow125 a).toNat
  BitVec.ofNat 128 (((t ^ 2 % Config.P) ^ 2 % Config.P * a.toNat) % Config.P)

/-- k successive squarings, `sqr^k` of R128. -/
def fieldSqrTimes : Nat → FieldWord → FieldWord
  | 0, x => x
  | k + 1, x => fieldSqrTimes k (fieldSqr x)

/-- The addition chain that R128 offers as a refinement of FPOW125 (PRESUMED by the spec itself, its G2; no command
uses it here: FPOW125 is defined by value, log 9). -/
def fieldPowChain (a : FieldWord) : FieldWord :=
  let t2 := fieldMul a (fieldSqr a)
  let t3 := fieldMul t2 (fieldSqrTimes 2 t2)
  let t4 := fieldMul t3 (fieldSqrTimes 4 t3)
  let t5 := fieldMul t4 (fieldSqrTimes 8 t4)
  let t6 := fieldMul t5 (fieldSqrTimes 16 t5)
  let t1 := fieldMul t6 (fieldSqrTimes 32 t6)
  let t1 := fieldMul (fieldSqrTimes 32 t1) t6
  let t1 := fieldMul t5 (fieldSqrTimes 16 t1)
  let t1 := fieldMul t4 (fieldSqrTimes 8 t1)
  let t1 := fieldMul t3 (fieldSqrTimes 4 t1)
  fieldMul a (fieldSqr t1)

end Sys2Proof.Machine
end

