-- ==== Sys2Proof/Machine/Field.lean ====
section
/-! DEFINITION. The meanings of the field commands (spec/41_field.md R120 to R129). -/

namespace Sys2Proof.Machine

/-- FRED: total (R121). -/
def execFred (rd ra : RegNum) (s : State) : Host.Outcome State Fault Refusal :=
  .next (s.writeF rd (fieldReduce (s.readF ra)))

/-- The end of a command with one field operand and the precondition of R120. -/
def fieldUnary (op : FieldWord → FieldWord) (rd ra : RegNum) (s : State) : State :=
  s.writeFieldResult rd (canonicalField (s.readF ra)) (op (s.readF ra))

/-- The end of a command with two field operands and the precondition of R120. -/
def fieldBinary (op : FieldWord → FieldWord → FieldWord) (rd ra rb : RegNum) (s : State) : State :=
  s.writeFieldResult rd (canonicalField (s.readF ra) && canonicalField (s.readF rb)) (op (s.readF ra) (s.readF rb))

/-- FADD (R122). -/
def execFadd (rd ra rb : RegNum) (s : State) : Host.Outcome State Fault Refusal :=
  .next (fieldBinary fieldAdd rd ra rb s)

/-- FSUB (R123). -/
def execFsub (rd ra rb : RegNum) (s : State) : Host.Outcome State Fault Refusal :=
  .next (fieldBinary fieldSub rd ra rb s)

/-- FNEG (R124). -/
def execFneg (rd ra : RegNum) (s : State) : Host.Outcome State Fault Refusal :=
  .next (fieldUnary fieldNeg rd ra s)

/-- FMUL (R125). -/
def execFmul (rd ra rb : RegNum) (s : State) : Host.Outcome State Fault Refusal :=
  .next (fieldBinary fieldMul rd ra rb s)

/-- FSQR (R126). -/
def execFsqr (rd ra : RegNum) (s : State) : Host.Outcome State Fault Refusal :=
  .next (fieldUnary fieldSqr rd ra s)

/-- FHALF (R127). -/
def execFhalf (rd ra : RegNum) (s : State) : Host.Outcome State Fault Refusal :=
  .next (fieldUnary fieldHalve rd ra s)

/-- FPOW125 (R128). -/
def execFpow125 (rd ra : RegNum) (s : State) : Host.Outcome State Fault Refusal :=
  .next (fieldUnary fieldPow125 rd ra s)

/-- FINV (R129): an operand of 0 is canonical and gives 0, with no check. -/
def execFinv (rd ra : RegNum) (s : State) : Host.Outcome State Fault Refusal :=
  .next (fieldUnary fieldInvert rd ra s)

end Sys2Proof.Machine
end

