-- ==== Sys2Proof/Machine/ScalarMath.lean ====
section
/-! DEFINITION. The functions of the scalar engine (spec/42_scalar.md R155 to R162, R164), for any curve-order constants. -/

namespace Sys2Proof.Machine

/-- `subtractModOrder(a,b)`: subtract, and add the order back under a mask made of the borrow (R155;
its law, R164). -/
def subtractModOrder (c : CurveParams) (a b : Scalar) : Scalar :=
  let d := mpSub a b
  (mpAdd d.1 (c.order &&& maskOf d.2 256)).1

/-- `addModOrder(a,b)`: add, the carry discarded, then `subtractModOrder(sum, order)` (R156, decision D18;
its law, R164). -/
def addModOrder (c : CurveParams) (a b : Scalar) : Scalar := subtractModOrder c (mpAdd a b).1 c.order

/-- `multiplyWide(a, b)`: the exact 512-bit product (R162). -/
def multiplyWide (a b : Scalar) : BitVec 512 := BitVec.ofNat 512 (a.toNat * b.toNat)

/-- `q` of R157: the low 256 bits of prod · NINV. -/
def montgomeryQuotient (c : CurveParams) (ma mb : Scalar) : Scalar :=
  BitVec.ofNat 256 ((multiplyWide ma mb).toNat * c.ninv.toNat)

/-- The 8-word sum of R157 and its carry. -/
def montgomerySum (c : CurveParams) (ma mb : Scalar) : BitVec 512 × Bool :=
  mpAdd (multiplyWide ma mb) (multiplyWide (montgomeryQuotient c ma mb) c.order)

/-- `V` of R157: the 257-bit value cout · 2^256 + (sum >> 256). -/
def montgomeryV (c : CurveParams) (ma mb : Scalar) : Nat :=
  (montgomerySum c ma mb).2.toNat * 2 ^ 256 + (montgomerySum c ma mb).1.toNat / 2 ^ 256

/-- `montgomeryMultiplyModOrder(ma, mb)`, the MMUL-function: one final subtraction of the order (R157). -/
def montgomeryMultiply (c : CurveParams) (ma mb : Scalar) : Scalar :=
  let v := montgomeryV c ma mb
  BitVec.ofNat 256 (if c.order.toNat ≤ v then v - c.order.toNat else v)

/-- The last line of R157 at word level, "using the same mask technique". No command uses it: it is the form that
`Obligations.MontgomeryMaskFormAgrees` compares with `montgomeryMultiply`. -/
def montgomeryMultiplyMasked (c : CurveParams) (ma mb : Scalar) : Scalar :=
  let r := montgomerySum c ma mb
  let d := mpSub (r.1.extractLsb' 256 256) c.order
  let mask := BitVec.ofNat 256 r.2.toNat - BitVec.ofNat 256 d.2.toNat
  d.1 + (c.order &&& mask)

/-- `toMontgomery(a)` (R158; the way into the domain of R164's laws). -/
def toMontgomery (c : CurveParams) (a : Scalar) : Scalar := montgomeryMultiply c a c.rsq

/-- `fromMontgomery(a)` (R159; the way back in R164's round trip). -/
def fromMontgomery (c : CurveParams) (a : Scalar) : Scalar := montgomeryMultiply c a 1#256

/-- `modulo_order(a)` (R160). -/
def moduloOrder (c : CurveParams) (a : Scalar) : Scalar := fromMontgomery c (toMontgomery c a)

/-- `makeOdd(k)`: the order is added under a mask made of the low bit, the last carry dropped (R161, decision D21;
its two laws, R164). -/
def makeOdd (c : CurveParams) (k : Scalar) : Scalar := (mpAdd k (c.order &&& maskOf (!k.getLsbD 0) 256)).1

/-- `FROMMONT(MMUL(TOMONT(x), TOMONT(y)))`, the product through the Montgomery domain (R164). No command computes it:
`Obligations.ScalarEngineLaws` gives its value. -/
def productThroughDomain (c : CurveParams) (x y : Scalar) : Scalar :=
  fromMontgomery c (montgomeryMultiply c (toMontgomery c x) (toMontgomery c y))

end Sys2Proof.Machine
end

