-- ==== Sys2Proof/Machine/Scalar.lean ====
section
/-! DEFINITION. The meanings of the scalar commands (spec/42_scalar.md R150 to R161). -/

namespace Sys2Proof.Machine

/-- MPADD (R153). -/
def execMpadd (rd ra rb : RegNum) (s : State) : Host.Outcome State Fault Refusal :=
  let r := mpAdd (s.readS ra) (s.readS rb)
  .next ((s.writeS rd r.1).writeCF r.2)

/-- MPSUB (R154). -/
def execMpsub (rd ra rb : RegNum) (s : State) : Host.Outcome State Fault Refusal :=
  let r := mpSub (s.readS ra) (s.readS rb)
  .next ((s.writeS rd r.1).writeCF r.2)

/-- SADDM (R156). -/
def execSaddm (rd ra rb : RegNum) (s : State) : Host.Outcome State Fault Refusal :=
  .next (s.writeS rd (addModOrder Config.curve (s.readS ra) (s.readS rb)))

/-- SSUBM (R155). -/
def execSsubm (rd ra rb : RegNum) (s : State) : Host.Outcome State Fault Refusal :=
  .next (s.writeS rd (subtractModOrder Config.curve (s.readS ra) (s.readS rb)))

/-- MMUL (R157). -/
def execMmul (rd ra rb : RegNum) (s : State) : Host.Outcome State Fault Refusal :=
  .next (s.writeS rd (montgomeryMultiply Config.curve (s.readS ra) (s.readS rb)))

/-- TOMONT (R158). -/
def execTomont (rd ra : RegNum) (s : State) : Host.Outcome State Fault Refusal :=
  .next (s.writeS rd (toMontgomery Config.curve (s.readS ra)))

/-- FROMMONT (R159). -/
def execFrommont (rd ra : RegNum) (s : State) : Host.Outcome State Fault Refusal :=
  .next (s.writeS rd (fromMontgomery Config.curve (s.readS ra)))

/-- SMODR (R160). -/
def execSmodr (rd ra : RegNum) (s : State) : Host.Outcome State Fault Refusal :=
  .next (s.writeS rd (moduloOrder Config.curve (s.readS ra)))

/-- MKODD (R161). -/
def execMkodd (rd ra : RegNum) (s : State) : Host.Outcome State Fault Refusal :=
  .next (s.writeS rd (makeOdd Config.curve (s.readS ra)))

end Sys2Proof.Machine
end

