-- ==== Sys2Proof/Machine/Bytes.lean ====
section
/-! DEFINITION. Byte strings and words within wider values (spec/00_scope.md R10, spec/20_memory.md R54). -/

namespace Sys2Proof.Machine

/-- `le_int(b)` (R10). -/
def leInt : List Byte → Nat
  | [] => 0
  | b :: rest => b.toNat + 2 ^ 8 * leInt rest

/-- `le_bytes(v, n)` (R10). -/
def leBytes (v n : Nat) : Vector Byte n := Vector.ofFn fun i : Fin n => BitVec.ofNat 8 (v / 2 ^ (8 * i.val))

/-- `word(x, j)` (R10). -/
def wordOf {n : Nat} (x : BitVec n) (j : Nat) : Word := x.extractLsb' (64 * j) 64

/-- `x` with its word `j` replaced by `v` (R53: "that word becomes v and no other word changes"). -/
def setWordOf {n : Nat} (x : BitVec n) (j : Nat) (v : Word) : BitVec n :=
  (x &&& ~~~((BitVec.allOnes 64).setWidth n <<< (64 * j))) ||| v.setWidth n <<< (64 * j)

/-- The bytes `8j` to `8j+7` of a buffer as a word: `le_int` of them (R52, R54). -/
def bufWord {n : Nat} (b : Vector Byte n) (j : Nat) : Word :=
  BitVec.ofNat 64 (leInt ((b.toList.drop (8 * j)).take 8))

/-- A buffer with its bytes `8j` to `8j+7` replaced by `le_bytes(v, 8)` (R53). -/
def setBufWord {n : Nat} (b : Vector Byte n) (j : Nat) (v : Word) : Vector Byte n :=
  Vector.ofFn fun k : Fin n => if k.val / 8 = j then v.extractLsb' (8 * (k.val % 8)) 8 else b[k]

end Sys2Proof.Machine
end

