-- ==== Sys2Proof/Machine/SchnorrMath.lean ====
section
/-! DEFINITION. SchnorrQ sign and verify as functions of byte strings (spec/43_schnorrq.md R180 to R188), for any
external primitives and any curve-order constants. -/

namespace Sys2Proof.Machine

/-- `scalar64(hb)`: the first 32 bytes of a 64-byte hash output as a scalar (R182, decision D23). -/
def scalar64 (hb : Vector Byte 64) : Scalar := BitVec.ofNat 256 (leInt (hb.toList.take 32))

/-- The private scalar a: the low half of `k = Hash(subseed, 64)` (R186 steps 1 and 5). -/
def privateScalar {Point : Type} (ext : Externals Point) (subseed : Vector Byte 32) : Scalar :=
  scalar64 (ext.hash subseed.toList 64)

/-- The nonce r: the scalar of `Hash(k[32:64] ‖ md, 64)`, not reduced (R186 step 2). -/
def nonceScalar {Point : Type} (ext : Externals Point) (subseed md : Vector Byte 32) : Scalar :=
  scalar64 (ext.hash ((ext.hash subseed.toList 64).toList.drop 32 ++ md.toList) 64)

/-- The challenge h: the scalar of `Hash(R-encoding ‖ pk ‖ md, 64)`, not reduced (R186 step 4, R188 step 3). -/
def challengeScalar {Point : Type} (ext : Externals Point) (renc : List Byte) (pk md : Vector Byte 32) : Scalar :=
  scalar64 (ext.hash (renc ++ pk.toList ++ md.toList) 64)

/-- `s` of R186 step 5, by the calls it lists (decision D25). -/
def signatureScalar (c : CurveParams) (r h a : Scalar) : Scalar :=
  let r1 := montgomeryMultiply c (montgomeryMultiply c r c.rsq) 1#256
  let rM := montgomeryMultiply c r1 c.rsq
  let hM := montgomeryMultiply c h c.rsq
  let aM := montgomeryMultiply c a c.rsq
  let tM := montgomeryMultiply c hM aM
  let sM := addModOrder c rM tM
  montgomeryMultiply c sM 1#256

/-- The guard of R186 step 6. -/
def subtractOrderOnce (c : CurveParams) (s : Scalar) : Scalar :=
  if c.order.toNat ≤ s.toNat then s - c.order else s

/-- The encoded nonce point, the R part of a signature (R186 step 3). -/
def nonceEncoding {Point : Type} (ext : Externals Point) (subseed md : Vector Byte 32) : Vector Byte 32 :=
  ext.encode (ext.fixedBaseMul (nonceScalar ext subseed md))

/-- `sign(subseed, publicKey, messageDigest)` (R186; signature layout R183). -/
def schnorrSign {Point : Type} (ext : Externals Point) (c : CurveParams) (subseed pk md : Vector Byte 32) :
    Vector Byte 64 :=
  let renc := nonceEncoding ext subseed md
  let r := nonceScalar ext subseed md
  let h := challengeScalar ext renc.toList pk md
  let a := privateScalar ext subseed
  let s2 := subtractOrderOnce c (signatureScalar c r h a)
  (renc ++ leBytes s2.toNat 32 : Vector Byte (32 + 32))

/-- The encoding bits that VERIFY requires clear before anything else (R183, R184, R188 step 1). -/
def canonicalEncoding (tag : Fin 32) (pk : Vector Byte 32) (sig : Vector Byte 64) : Bool :=
  pk[tag] &&& 0x80#8 == 0#8 && sig[15] &&& 0x80#8 == 0#8 && sig[62] &&& 0xC0#8 == 0#8 && sig[63] == 0#8

/-- `verify(publicKey, messageDigest, signature)` (R188). -/
def schnorrVerify {Point : Type} (ext : Externals Point) (tag : Fin 32) (pk md : Vector Byte 32)
    (sig : Vector Byte 64) : Bool :=
  if canonicalEncoding tag pk sig then
    match ext.decode pk with
    | none => false
    | some point =>
      let h := challengeScalar ext (sig.toList.take 32) pk md
      let s : Scalar := BitVec.ofNat 256 (leInt (sig.toList.drop 32))
      match ext.doubleScalarMulVerify s h point with
      | none => false
      | some q => (ext.encode q).toList == sig.toList.take 32
  else false

end Sys2Proof.Machine
end

