-- ==== Sys2Proof/Machine/Schnorr.lean ====
section
/-! DEFINITION. The meanings of SIGN and VERIFY (spec/43_schnorrq.md R186, R188), with the machine's externals. -/

namespace Sys2Proof.Machine

/-- SIGN: writes all of `SIG` and nothing else (R186). -/
def execSign (s : State) : Host.Outcome State Fault Refusal :=
  .next (s.writeSig (schnorrSign Config.externals Config.curve s.subseed s.pubkey s.digest))

/-- VERIFY: writes `VOK` and nothing else (R188). -/
def execVerify (s : State) : Host.Outcome State Fault Refusal :=
  .next (s.writeVOK (schnorrVerify Config.externals Config.pkTagByte s.pubkey s.digest s.sig))

end Sys2Proof.Machine
end

