-- ==== Sys2Proof/Machine/Dispatch.lean ====
section
/-! DEFINITION. The dispatch of a decoded command to its meaning (spec/30_encoding.md R75). -/

namespace Sys2Proof.Machine

def exec (i : Instr) (s : State) : Host.Outcome State Fault Refusal :=
  match i with
  | .ctnz rd ra => Sys2Proof.Machine.execCtnz rd ra s
  | .ctz rd ra => Sys2Proof.Machine.execCtz rd ra s
  | .ctlt rd ra rb => Sys2Proof.Machine.execCtlt rd ra rb s
  | .adc rd ra rb cin => Sys2Proof.Machine.execAdc rd ra rb cin s
  | .sbb rd ra rb cin => Sys2Proof.Machine.execSbb rd ra rb cin s
  | .fred rd ra => Sys2Proof.Machine.execFred rd ra s
  | .fadd rd ra rb => Sys2Proof.Machine.execFadd rd ra rb s
  | .fsub rd ra rb => Sys2Proof.Machine.execFsub rd ra rb s
  | .fneg rd ra => Sys2Proof.Machine.execFneg rd ra s
  | .fmul rd ra rb => Sys2Proof.Machine.execFmul rd ra rb s
  | .fsqr rd ra => Sys2Proof.Machine.execFsqr rd ra s
  | .fhalf rd ra => Sys2Proof.Machine.execFhalf rd ra s
  | .fpow125 rd ra => Sys2Proof.Machine.execFpow125 rd ra s
  | .finv rd ra => Sys2Proof.Machine.execFinv rd ra s
  | .mpadd rd ra rb => Sys2Proof.Machine.execMpadd rd ra rb s
  | .mpsub rd ra rb => Sys2Proof.Machine.execMpsub rd ra rb s
  | .saddm rd ra rb => Sys2Proof.Machine.execSaddm rd ra rb s
  | .ssubm rd ra rb => Sys2Proof.Machine.execSsubm rd ra rb s
  | .mmul rd ra rb => Sys2Proof.Machine.execMmul rd ra rb s
  | .tomont rd ra => Sys2Proof.Machine.execTomont rd ra s
  | .frommont rd ra => Sys2Proof.Machine.execFrommont rd ra s
  | .smodr rd ra => Sys2Proof.Machine.execSmodr rd ra s
  | .mkodd rd ra => Sys2Proof.Machine.execMkodd rd ra s
  | .sign => Sys2Proof.Machine.execSign s
  | .verify => Sys2Proof.Machine.execVerify s

end Sys2Proof.Machine
end

