-- ==== Sys2Proof/Machine/Window.lean ====
section
/-! DEFINITION. The host window: its map, and the access primitives `MemRead` and `MemWrite` on every location but a
write of `CMD` (spec/20_memory.md R50 to R56, spec/10_state.md R28, R30). -/

namespace Sys2Proof.Machine

/-- The locations of the map (R51). `j` is the number of a 64-bit word within a register, a buffer or a constant. -/
inductive Loc where
  | cmd
  | status
  | ecmd
  | w (i : RegNum)
  | f (i : RegNum) (j : Fin 2)
  | s (i : RegNum) (j : Fin 4)
  | subseed (j : Fin 4)
  | pubkey (j : Fin 4)
  | digest (j : Fin 4)
  | sig (j : Fin 8)
  | constP (j : Fin 2)
  | constOrder (j : Fin 4)
  | constRsq (j : Fin 4)
  | constNinv (j : Fin 4)
  | constOne (j : Fin 4)
deriving DecidableEq, Repr

/-- The offset of a location (R51). -/
def Loc.offset : Loc → Nat
  | .cmd => 0x000
  | .status => 0x008
  | .ecmd => 0x010
  | .w i => 0x040 + 8 * i.val
  | .f i j => 0x080 + 16 * i.val + 8 * j.val
  | .s i j => 0x100 + 32 * i.val + 8 * j.val
  | .subseed j => 0x200 + 8 * j.val
  | .pubkey j => 0x220 + 8 * j.val
  | .digest j => 0x240 + 8 * j.val
  | .sig j => 0x280 + 8 * j.val
  | .constP j => 0x300 + 8 * j.val
  | .constOrder j => 0x320 + 8 * j.val
  | .constRsq j => 0x340 + 8 * j.val
  | .constNinv j => 0x360 + 8 * j.val
  | .constOne j => 0x380 + 8 * j.val

/-- The location that word `k` of the window belongs to, `none` where the map has a gap (R51). -/
def locOfWord (k : Nat) : Option Loc :=
  if k = 0 then some .cmd
  else if k = 1 then some .status
  else if k = 2 then some .ecmd
  else if k < 8 then none
  else if k < 16 then some (.w (Fin.ofNat 8 (k - 8)))
  else if k < 32 then some (.f (Fin.ofNat 8 ((k - 16) / 2)) (Fin.ofNat 2 (k - 16)))
  else if k < 64 then some (.s (Fin.ofNat 8 ((k - 32) / 4)) (Fin.ofNat 4 (k - 32)))
  else if k < 68 then some (.subseed (Fin.ofNat 4 (k - 64)))
  else if k < 72 then some (.pubkey (Fin.ofNat 4 (k - 68)))
  else if k < 76 then some (.digest (Fin.ofNat 4 (k - 72)))
  else if k < 80 then none
  else if k < 88 then some (.sig (Fin.ofNat 8 (k - 80)))
  else if k < 96 then none
  else if k < 98 then some (.constP (Fin.ofNat 2 (k - 96)))
  else if k < 100 then none
  else if k < 104 then some (.constOrder (Fin.ofNat 4 (k - 100)))
  else if k < 108 then some (.constRsq (Fin.ofNat 4 (k - 104)))
  else if k < 112 then some (.constNinv (Fin.ofNat 4 (k - 108)))
  else if k < 116 then some (.constOne (Fin.ofNat 4 (k - 112)))
  else none

/-- The location an access names: only an aligned 64-bit access to a mapped offset has one (R55). -/
def accessLoc (off width : Nat) : Option Loc :=
  if width = 8 ∧ off % 8 = 0 then locOfWord (off / 8) else none

/-- `CONST_ONE` (R30). -/
def constOne : Scalar := 1#256

/-- `MemRead` (R52): the word at a location. -/
def State.readLoc (s : State) : Loc → Word
  | .cmd => 0#64
  | .status => s.status
  | .ecmd => s.ecmd
  | .w i => s.readW i
  | .f i j => wordOf (s.readF i) j
  | .s i j => wordOf (s.readS i) j
  | .subseed j => bufWord s.subseed j
  | .pubkey j => bufWord s.pubkey j
  | .digest j => bufWord s.digest j
  | .sig j => bufWord s.sig j
  | .constP j => wordOf primeWord j
  | .constOrder j => wordOf Config.curve.order j
  | .constRsq j => wordOf Config.curve.rsq j
  | .constNinv j => wordOf Config.curve.ninv j
  | .constOne j => wordOf constOne j

/-- `MemWrite` (R53) at a location other than `CMD`, whose write executes a command and stands in Machine/Host.lean:
here a write of `CMD` leaves the state, since `CMD` holds none (R28). -/
def State.writeLoc (s : State) (v : Word) : Loc → State
  | .cmd => s
  | .status => s.writeStatus v
  | .ecmd => s
  | .w i => s.writeW i v
  | .f i j => s.writeF i (setWordOf (s.readF i) j v)
  | .s i j => s.writeS i (setWordOf (s.readS i) j v)
  | .subseed j => { s with subseed := setBufWord s.subseed j v }
  | .pubkey j => { s with pubkey := setBufWord s.pubkey j v }
  | .digest j => { s with digest := setBufWord s.digest j v }
  | .sig j => { s with sig := setBufWord s.sig j v }
  | .constP _ => s
  | .constOrder _ => s
  | .constRsq _ => s
  | .constNinv _ => s
  | .constOne _ => s

end Sys2Proof.Machine
end

