-- ==== Sys2Proof/Machine/Host.lean ====
section
/-! DEFINITION. The service of one move of the host: a read, a write, the execution of a command, the reset
(spec/20_memory.md R52, R53, R58, spec/30_encoding.md R70, spec/60_exceptions.md R211, spec/70_reset_and_hazards.md R230). -/

namespace Sys2Proof.Machine

/-- A host write of `v` to `CMD`: the command executes, or the refusal is taken (R70, R211). -/
def issueCommand (v : Word) (s : State) : Host.Outcome State Fault Refusal :=
  match decodeCmd v with
  | .command i => exec i s
  | .refuse c => .next (s.raiseRefused c v)

/-- A host write at a location the map gives (R53). -/
def serveWrite (l : Loc) (v : Word) (s : State) : Host.Outcome State Fault Refusal :=
  if l = .cmd then issueCommand v s else .next (s.writeLoc v l)

/-- One move of the host, complete before the next (R58). An access that no location accepts is refused (R55). -/
def serveEvent (e : HostEvent) (s : State) : Host.Outcome State Fault Refusal :=
  match e with
  | .read off width =>
    match accessLoc off width with
    | some l => .next { s with reply := some (s.readLoc l) }
    | none => .refused (.hostProtocolViolation off width)
  | .write off width v =>
    match accessLoc off width with
    | some l => serveWrite l v s
    | none => .refused (.hostProtocolViolation off width)
  | .reset => .next s.applyReset

/-- The state in which the first move of the port has been taken up and has returned nothing yet. -/
def State.takeMove (s : State) (rest : List HostEvent) : State := { s with port := rest, reply := none }

/-- The next move of the host served; with no move to come the engine stays ready and nothing changes (R211, R230). -/
def serveNext (s : State) : Host.Outcome State Fault Refusal :=
  match s.port with
  | [] => .next s
  | e :: rest => serveEvent e (s.takeMove rest)

/-- The host issues one more move, after all it has issued (R58). -/
def State.submit (s : State) (e : HostEvent) : State := { s with port := s.port ++ [e] }

/-- The offset in the window of a bus address, `none` outside the 0x400 bytes at `BASE` (R50). -/
def windowOffset (addr : Nat) : Option Nat :=
  if Config.base ≤ addr ∧ addr < Config.base + 0x400 then some (addr - Config.base) else none

/-- A bus read at an address: it is a move of this QCORE's host only if the window holds the address (R50). -/
def State.submitBusRead (s : State) (addr width : Nat) : State :=
  match windowOffset addr with
  | some off => s.submit (.read off width)
  | none => s

/-- A bus write at an address: it is a move of this QCORE's host only if the window holds the address (R50). -/
def State.submitBusWrite (s : State) (addr width : Nat) (v : Word) : State :=
  match windowOffset addr with
  | some off => s.submit (.write off width v)
  | none => s

/-- The move that issues the command word `w` of a table row of `nbits` bits, all higher bits zero (R70). -/
def commandMove (nbits w : Nat) : HostEvent := .write 0x000 8 (BitVec.ofNat 64 (w % 2 ^ nbits))

end Sys2Proof.Machine
end

