-- ==== Sys2Proof/Machine/Step.lean ====
section
/-! DEFINITION. One step of the machine: the next move of the host is served (spec/20_memory.md R58). -/

namespace Sys2Proof.Machine

/-- One step. -/
def step (s : State) : Host.Outcome State Fault Refusal := serveNext s

/-- `s` with the write of a command word to `CMD` put before every move of the host still to come, so that the next
step decodes and runs that command (R70; log 1). -/
def State.withFetchWord (s : State) (nbits w : Nat) : State := { s with port := commandMove nbits w :: s.port }

end Sys2Proof.Machine
end

