-- ==== Sys2Proof/Machine/Asm.lean ====
section
/-! DEFINITION. The textual form of commands, the pseudo-instructions, and the host directives of the spec's programs
(spec/30_encoding.md R79 to R81). -/

namespace Sys2Proof.Machine

/-- The mnemonic of a command (R75, R79). -/
def mnemonic : Instr → String
  | .ctnz _ _ => "CTNZ"
  | .ctz _ _ => "CTZ"
  | .ctlt _ _ _ => "CTLT"
  | .adc _ _ _ _ => "ADC"
  | .sbb _ _ _ _ => "SBB"
  | .fred _ _ => "FRED"
  | .fadd _ _ _ => "FADD"
  | .fsub _ _ _ => "FSUB"
  | .fneg _ _ => "FNEG"
  | .fmul _ _ _ => "FMUL"
  | .fsqr _ _ => "FSQR"
  | .fhalf _ _ => "FHALF"
  | .fpow125 _ _ => "FPOW125"
  | .finv _ _ => "FINV"
  | .mpadd _ _ _ => "MPADD"
  | .mpsub _ _ _ => "MPSUB"
  | .saddm _ _ _ => "SADDM"
  | .ssubm _ _ _ => "SSUBM"
  | .mmul _ _ _ => "MMUL"
  | .tomont _ _ => "TOMONT"
  | .frommont _ _ => "FROMMONT"
  | .smodr _ _ => "SMODR"
  | .mkodd _ _ => "MKODD"
  | .sign => "SIGN"
  | .verify => "VERIFY"

/-- A register operand: its file letter and its number (R79). -/
def regText (file : String) (i : RegNum) : String :=
  file ++ #v["0", "1", "2", "3", "4", "5", "6", "7"][i]

/-- The `cin` operand; 3 has no text (R79). -/
def cinText (cin : BitVec 2) : Option String :=
  if cin = 0#2 then some "c0" else if cin = 1#2 then some "c1" else if cin = 2#2 then some "cf" else none

/-- The operands of a command as text, in the order `rd, ra, rb, cin` (R79). -/
def operandTexts : Instr → Option (List String)
  | .ctnz d a => some [regText "W" d, regText "W" a]
  | .ctz d a => some [regText "W" d, regText "W" a]
  | .ctlt d a b => some [regText "W" d, regText "W" a, regText "W" b]
  | .adc d a b c => (cinText c).map fun t => [regText "W" d, regText "W" a, regText "W" b, t]
  | .sbb d a b c => (cinText c).map fun t => [regText "W" d, regText "W" a, regText "W" b, t]
  | .fred d a => some [regText "F" d, regText "F" a]
  | .fadd d a b => some [regText "F" d, regText "F" a, regText "F" b]
  | .fsub d a b => some [regText "F" d, regText "F" a, regText "F" b]
  | .fneg d a => some [regText "F" d, regText "F" a]
  | .fmul d a b => some [regText "F" d, regText "F" a, regText "F" b]
  | .fsqr d a => some [regText "F" d, regText "F" a]
  | .fhalf d a => some [regText "F" d, regText "F" a]
  | .fpow125 d a => some [regText "F" d, regText "F" a]
  | .finv d a => some [regText "F" d, regText "F" a]
  | .mpadd d a b => some [regText "S" d, regText "S" a, regText "S" b]
  | .mpsub d a b => some [regText "S" d, regText "S" a, regText "S" b]
  | .saddm d a b => some [regText "S" d, regText "S" a, regText "S" b]
  | .ssubm d a b => some [regText "S" d, regText "S" a, regText "S" b]
  | .mmul d a b => some [regText "S" d, regText "S" a, regText "S" b]
  | .tomont d a => some [regText "S" d, regText "S" a]
  | .frommont d a => some [regText "S" d, regText "S" a]
  | .smodr d a => some [regText "S" d, regText "S" a]
  | .mkodd d a => some [regText "S" d, regText "S" a]
  | .sign => some []
  | .verify => some []

/-- `MNEMONIC operands`, the operands separated by commas; `none` for an ill-formed command (R79). -/
def asmText (i : Instr) : Option String :=
  (operandTexts i).map fun ops =>
    match ops with
    | [] => mnemonic i
    | first :: rest => mnemonic i ++ " " ++ rest.foldl (fun acc t => acc ++ ", " ++ t) first

/-- A register operand read back: the letter must be the file of the opcode (R79). -/
def parseReg (file text : String) : Option RegNum :=
  [0, 1, 2, 3, 4, 5, 6, 7].find? fun i => regText file i == text

/-- The `cin` operand read back (R79). -/
def parseCin (text : String) : Option (BitVec 2) :=
  [0#2, 1#2, 2#2].find? fun c => cinText c == some text

/-- Two register operands of one file (format `R2`). -/
def parse2 (file : String) (build : RegNum → RegNum → Instr) : List String → Option Instr
  | [d, a] => do return build (← parseReg file d) (← parseReg file a)
  | _ => none

/-- Three register operands of one file (format `R3`). -/
def parse3 (file : String) (build : RegNum → RegNum → RegNum → Instr) : List String → Option Instr
  | [d, a, b] => do return build (← parseReg file d) (← parseReg file a) (← parseReg file b)
  | _ => none

/-- Three register operands of one file and a `cin` (format `R3C`). -/
def parse3c (file : String) (build : RegNum → RegNum → RegNum → BitVec 2 → Instr) : List String → Option Instr
  | [d, a, b, c] => do return build (← parseReg file d) (← parseReg file a) (← parseReg file b) (← parseCin c)
  | _ => none

/-- No operand (format `Z`). -/
def parse0 (i : Instr) : List String → Option Instr
  | [] => some i
  | _ => none

/-- `ADD Wd, Wa, Wb` is `ADC Wd, Wa, Wb, c0` (R81). -/
def pseudoAdd (rd ra rb : RegNum) : Instr := .adc rd ra rb 0#2

/-- `SUB Wd, Wa, Wb` is `SBB Wd, Wa, Wb, c0` (R81). -/
def pseudoSub (rd ra rb : RegNum) : Instr := .sbb rd ra rb 0#2

/-- `FDBL Fd, Fa` is `FADD Fd, Fa, Fa` (R81). -/
def pseudoFdbl (rd ra : RegNum) : Instr := .fadd rd ra ra

/-- How each mnemonic, the three pseudo-instructions among them, reads its operands (R75, R79, R81). -/
def assemblers : List (String × (List String → Option Instr)) :=
  [ ("CTNZ", parse2 "W" .ctnz), ("CTZ", parse2 "W" .ctz), ("CTLT", parse3 "W" .ctlt), ("ADC", parse3c "W" .adc),
    ("SBB", parse3c "W" .sbb), ("FRED", parse2 "F" .fred), ("FADD", parse3 "F" .fadd), ("FSUB", parse3 "F" .fsub),
    ("FNEG", parse2 "F" .fneg), ("FMUL", parse3 "F" .fmul), ("FSQR", parse2 "F" .fsqr), ("FHALF", parse2 "F" .fhalf),
    ("FPOW125", parse2 "F" .fpow125), ("FINV", parse2 "F" .finv), ("MPADD", parse3 "S" .mpadd),
    ("MPSUB", parse3 "S" .mpsub), ("SADDM", parse3 "S" .saddm), ("SSUBM", parse3 "S" .ssubm), ("MMUL", parse3 "S" .mmul),
    ("TOMONT", parse2 "S" .tomont), ("FROMMONT", parse2 "S" .frommont), ("SMODR", parse2 "S" .smodr),
    ("MKODD", parse2 "S" .mkodd), ("SIGN", parse0 .sign), ("VERIFY", parse0 .verify), ("ADD", parse3 "W" pseudoAdd),
    ("SUB", parse3 "W" pseudoSub), ("FDBL", parse2 "F" pseudoFdbl) ]

/-- The command of a mnemonic and its operand texts; `none` where R79 gives no command. -/
def assemble (name : String) (operands : List String) : Option Instr := do
  let row ← assemblers.find? fun r => r.1 == name
  row.2 operands

/-- A text without the blanks at its two ends. -/
def trimBlanks (t : List Char) : List Char :=
  ((t.dropWhile (· == ' ')).reverse.dropWhile (· == ' ')).reverse

/-- The parts of a text between commas, blanks trimmed; `part` is the part being read, reversed. -/
def splitCommas (part : List Char) : List Char → List (List Char)
  | [] => [trimBlanks part.reverse]
  | ch :: rest => if ch == ',' then trimBlanks part.reverse :: splitCommas [] rest else splitCommas (ch :: part) rest

/-- A line of a program, its comment dropped: `MNEMONIC operands` (R79, R81). -/
def assembleLine (line : String) : Option Instr :=
  let t := trimBlanks (line.toList.takeWhile (· != ';'))
  let operands := trimBlanks (t.dropWhile (· != ' '))
  assemble (String.ofList (t.takeWhile (· != ' ')))
    (if operands.isEmpty then [] else (splitCommas [] operands).map String.ofList)

/-- A command line of a program: the write of its word to `CMD` (R80). -/
def commandLine (i : Instr) : HostEvent := .write 0x000 8 (cmdValue i)

/-- A location of `n` words under its name, and each of its words under the name with a dot and the number of the
word (R80: `F3.1`, `S2.0`). -/
def wordNames (name : String) (off n : Nat) : List (String × Nat × Nat) :=
  (name, off, n) ::
    ([(".0", 0), (".1", 1), (".2", 2), (".3", 3), (".4", 4), (".5", 5), (".6", 6), (".7", 7)].take n).map fun w =>
      (name ++ w.1, off + 8 * w.2, 1)

/-- The names of R51 that a host directive can use: name, offset, number of words (R80). -/
def namedLocations : List (String × Nat × Nat) :=
  [("CMD", 0x000, 1), ("STATUS", 0x008, 1), ("ECMD", 0x010, 1)] ++
  ([0, 1, 2, 3, 4, 5, 6, 7] : List RegNum).map (fun i => (regText "W" i, 0x040 + 8 * i.val, 1)) ++
  ([0, 1, 2, 3, 4, 5, 6, 7] : List RegNum).flatMap (fun i => wordNames (regText "F" i) (0x080 + 16 * i.val) 2) ++
  ([0, 1, 2, 3, 4, 5, 6, 7] : List RegNum).flatMap (fun i => wordNames (regText "S" i) (0x100 + 32 * i.val) 4) ++
  wordNames "SUBSEED" 0x200 4 ++ wordNames "PUBKEY" 0x220 4 ++ wordNames "DIGEST" 0x240 4 ++ wordNames "SIG" 0x280 8 ++
  wordNames "CONST_P" 0x300 2 ++ wordNames "CONST_ORDER" 0x320 4 ++ wordNames "CONST_RSQ" 0x340 4 ++
  wordNames "CONST_NINV" 0x360 4 ++ wordNames "CONST_ONE" 0x380 4

/-- The offset and the number of words of a named location (R51, R80). -/
def namedLocation (name : String) : Option (Nat × Nat) := (namedLocations.find? fun r => r.1 == name).map Prod.snd

/-- One `MemWrite` per word, word 0 first, from an offset on (R80). -/
def hostWriteWords (off : Nat) : List Word → List HostEvent
  | [] => []
  | v :: rest => .write off 8 v :: hostWriteWords (off + 8) rest

/-- One `MemRead` per word, word 0 first, from an offset on (R80). -/
def hostReadWords (off : Nat) : Nat → List HostEvent
  | 0 => []
  | n + 1 => .read off 8 :: hostReadWords (off + 8) n

/-- `host.write LOC, words`: as many words as the location has (R80). -/
def hostWrite (name : String) (words : List Word) : Option (List HostEvent) :=
  match namedLocation name with
  | some (off, n) => if words.length = n then some (hostWriteWords off words) else none
  | none => none

/-- `host.write LOC, bytes`: a buffer given as a byte string, eight bytes to a word (R80, R54). -/
def hostWriteBytes (name : String) (bytes : List Byte) : Option (List HostEvent) :=
  if bytes.length % 8 = 0 then
    hostWrite name ((List.range (bytes.length / 8)).map fun j => BitVec.ofNat 64 (leInt ((bytes.drop (8 * j)).take 8)))
  else none

/-- `host.read LOC` (R80). -/
def hostRead (name : String) : Option (List HostEvent) :=
  (namedLocation name).map fun r => hostReadWords r.1 r.2

end Sys2Proof.Machine
end

