-- ==== Sys2Proof/Safety.lean ====
section
/-! DEFINITION. What a good state and a good host are, in the terms the statements use. -/

namespace Sys2Proof

open Machine

/-- The error record is consistent: while `ERR` is 0, `ECODE` and `ECMD` are 0; while it is 1, `ECODE` is one of the
codes that are ever produced (R28, R210). -/
def errorRecordOk (s : State) : Bool :=
  if s.err then s.ecode == 1#8 || s.ecode == 2#8 || s.ecode == 3#8 else s.ecode == 0#8 && s.ecmd == 0#64

/-- The error record says why: the recorded `ECMD` is a value the decoder refuses with the recorded `ECODE` (R210, R211). -/
def errorRecordTrue (s : State) : Prop :=
  s.err = true → ∃ c, decodeCmd s.ecmd = .refuse c ∧ s.ecode = c.bits

/-- A move the window accepts: an aligned 64-bit access to a mapped offset, or the reset (R55, R230). -/
def acceptedMove : HostEvent → Bool
  | .read off width => (accessLoc off width).isSome
  | .write off width _ => (accessLoc off width).isSome
  | .reset => true

/-- A host that keeps the protocol in every move still to come (R55). -/
def politeHost (s : State) : Bool := s.port.all acceptedMove

/-- The three register files (R21 to R23). -/
inductive RegFile where
  | w
  | f
  | s
deriving DecidableEq, Repr

/-- The one register a command writes, in the file of its opcode; none for SIGN and VERIFY (R75, R78). -/
def destination : Instr → Option (RegFile × RegNum)
  | .ctnz d _ => some (.w, d)
  | .ctz d _ => some (.w, d)
  | .ctlt d _ _ => some (.w, d)
  | .adc d _ _ _ => some (.w, d)
  | .sbb d _ _ _ => some (.w, d)
  | .fred d _ => some (.f, d)
  | .fadd d _ _ => some (.f, d)
  | .fsub d _ _ => some (.f, d)
  | .fneg d _ => some (.f, d)
  | .fmul d _ _ => some (.f, d)
  | .fsqr d _ => some (.f, d)
  | .fhalf d _ => some (.f, d)
  | .fpow125 d _ => some (.f, d)
  | .finv d _ => some (.f, d)
  | .mpadd d _ _ => some (.s, d)
  | .mpsub d _ _ => some (.s, d)
  | .saddm d _ _ => some (.s, d)
  | .ssubm d _ _ => some (.s, d)
  | .mmul d _ _ => some (.s, d)
  | .tomont d _ => some (.s, d)
  | .frommont d _ => some (.s, d)
  | .smodr d _ => some (.s, d)
  | .mkodd d _ => some (.s, d)
  | .sign => none
  | .verify => none

/-- The commands that write `CF` (R25). -/
def writesCarry : Instr → Bool
  | .ctnz _ _ => false
  | .ctz _ _ => false
  | .ctlt _ _ _ => false
  | .adc _ _ _ _ => true
  | .sbb _ _ _ _ => true
  | .fred _ _ => false
  | .fadd _ _ _ => false
  | .fsub _ _ _ => false
  | .fneg _ _ => false
  | .fmul _ _ _ => false
  | .fsqr _ _ => false
  | .fhalf _ _ => false
  | .fpow125 _ _ => false
  | .finv _ _ => false
  | .mpadd _ _ _ => true
  | .mpsub _ _ _ => true
  | .saddm _ _ _ => false
  | .ssubm _ _ _ => false
  | .mmul _ _ _ => false
  | .tomont _ _ => false
  | .frommont _ _ => false
  | .smodr _ _ => false
  | .mkodd _ _ => false
  | .sign => false
  | .verify => false

/-- The locations that hold data: a host write replaces their word (R51, R53). -/
def isData : Loc → Bool
  | .cmd => false
  | .status => false
  | .ecmd => false
  | .w _ => true
  | .f _ _ => true
  | .s _ _ => true
  | .subseed _ => true
  | .pubkey _ => true
  | .digest _ => true
  | .sig _ => true
  | .constP _ => false
  | .constOrder _ => false
  | .constRsq _ => false
  | .constNinv _ => false
  | .constOne _ => false

end Sys2Proof
end

