-- ==== Sys2Proof/Certificates/Slice0/Obligations.lean ====
section
/-! DEFINITION. The statements for the provers. Where a statement names a sequence of bytes, words or a product, it
does so with `leInt`, `leBytes` (le_int, le_bytes of R10) and plain arithmetic on unbounded numbers (R9). -/

open Sys2Proof Sys2Proof.Machine

/-! ## Issue, decoding, refusal -/

/-- R70: a `CMD` value that decodes is run: the step is `exec` of the command it decodes to, the move consumed. -/
def Obligations.StepRunsDecodedCommand : Prop :=
  ∀ (s : State) (v : Word) (rest : List HostEvent) (i : Instr),
    s.port = .write 0x000 8 v :: rest → decodeCmd v = .command i →
      i.wellFormed = true ∧ step s = exec i { s with port := rest, reply := none }

/-- R211: a `CMD` value that does not decode leaves the state but for the error record, and that only while `ERR` is 0;
the engine stays ready: whether or not `ERR` is set, the next value, if legal, is executed. -/
def Obligations.RefusedCommandIsRecordedOnce : Prop :=
  ∀ (s : State) (v : Word) (rest : List HostEvent) (c : RefuseCode),
    s.port = .write 0x000 8 v :: rest → decodeCmd v = .refuse c →
      step s = .next { s with port := rest, reply := none, err := true,
                              ecode := if s.err then s.ecode else c.bits, ecmd := if s.err then s.ecmd else v } ∧
      ∀ (t : State) (w : Word) (i : Instr) (more : List HostEvent), step s = .next t →
        rest = .write 0x000 8 w :: more → decodeCmd w = .command i →
          step t = exec i { t with port := more, reply := none } ∧ ∃ u, step t = .next u

/-- R76, R212, R213: exactly one code, the first that applies in the order upper half (2, whatever the lower half is),
opcode (1), must-be-zero bits (2), `cin` (3); where none applies, a command. The 25 opcodes and the must-be-zero bits
are written out. -/
def Obligations.RefusalCausesInPriorityOrder : Prop :=
  ∀ v : Word,
    let hi := v.extractLsb' 32 32
    let op := v.extractLsb' 24 8
    let legal := op ∈ [0x10#8, 0x11#8, 0x12#8, 0x13#8, 0x14#8, 0x20#8, 0x21#8, 0x22#8, 0x23#8, 0x24#8, 0x25#8, 0x26#8,
      0x27#8, 0x28#8, 0x30#8, 0x31#8, 0x32#8, 0x33#8, 0x34#8, 0x35#8, 0x36#8, 0x37#8, 0x38#8, 0x40#8, 0x41#8]
    let withCin := op = 0x13#8 ∨ op = 0x14#8
    let mustBeZero : Word :=
      if op = 0x13#8 ∨ op = 0x14#8 then 0x008883FF#64
      else if op ∈ [0x12#8, 0x21#8, 0x22#8, 0x24#8, 0x30#8, 0x31#8, 0x32#8, 0x33#8, 0x34#8] then 0x00888FFF#64
      else if op = 0x40#8 ∨ op = 0x41#8 then 0x00FFFFFF#64
      else 0x0088FFFF#64
    (RefuseCode.illegalOpcode.bits = 1#8 ∧ RefuseCode.reservedNonzero.bits = 2#8 ∧ RefuseCode.illegalCin.bits = 3#8) ∧
    (hi ≠ 0#32 → decodeCmd v = .refuse .reservedNonzero) ∧
    (hi = 0#32 → ¬ legal → decodeCmd v = .refuse .illegalOpcode) ∧
    (hi = 0#32 → legal → v &&& mustBeZero ≠ 0#64 → decodeCmd v = .refuse .reservedNonzero) ∧
    (hi = 0#32 → v &&& mustBeZero = 0#64 → withCin → v.extractLsb' 10 2 = 3#2 → decodeCmd v = .refuse .illegalCin) ∧
    (hi = 0#32 → legal → v &&& mustBeZero = 0#64 → ¬ (withCin ∧ v.extractLsb' 10 2 = 3#2) →
      ∃ i, decodeCmd v = .command i)

/-- R75: the value that issues a well-formed command decodes to it. -/
def Obligations.DecodeOfEncode : Prop :=
  ∀ i : Instr, i.wellFormed = true → decodeCmd (cmdValue i) = .command i

/-- R77: a value that decodes to a command is the one value that issues it, and the command is well formed. -/
def Obligations.EncodeOfDecode : Prop :=
  ∀ (v : Word) (i : Instr), decodeCmd v = .command i → cmdValue i = v ∧ i.wellFormed = true

/-- A few words of spec/95_test_vectors.md section 3 decode to the commands it names. -/
def Obligations.SampleWordsDecode : Prop :=
  decodeCmd 0x11220000#64 = .command (.ctz 2 2) ∧ decodeCmd 0x13777800#64 = .command (.adc 7 7 7 2#2) ∧
  decodeCmd 0x14345400#64 = .command (.sbb 3 4 5 1#2) ∧ decodeCmd 0x24201000#64 = .command (.fmul 2 0 1) ∧
  decodeCmd 0x34765000#64 = .command (.mmul 7 6 5) ∧ decodeCmd 0x41000000#64 = .command .verify

/-- R74: `cin` 3 is illegal: the decoder refuses the word with code 3. That the meaning of such a term, which nothing
decodes to, records the same refusal is the model's (DEDUCED, log 12). -/
def Obligations.CinThreeIsRefused : Prop :=
  ∀ (s : State) (rd ra rb : RegNum),
    let record := fun (v : Word) => { s with err := true, ecode := if s.err then s.ecode else 3#8,
                                             ecmd := if s.err then s.ecmd else v }
    decodeCmd (cmdValue (.adc rd ra rb 3#2)) = .refuse .illegalCin ∧
    decodeCmd (cmdValue (.sbb rd ra rb 3#2)) = .refuse .illegalCin ∧
    exec (.adc rd ra rb 3#2) s = .next (record (cmdValue (.adc rd ra rb 3#2))) ∧
    exec (.sbb rd ra rb 3#2) s = .next (record (cmdValue (.sbb rd ra rb 3#2)))

/-! ## Constant-time primitives -/

/-- R100, R101. -/
def Obligations.CtnzCtzResults : Prop :=
  ∀ (s : State) (rd ra : RegNum),
    encode (.ctnz rd ra) = 0x10000000#32 ||| BitVec.ofNat 32 rd.val <<< 20 ||| BitVec.ofNat 32 ra.val <<< 16 ∧
    encode (.ctz rd ra) = 0x11000000#32 ||| BitVec.ofNat 32 rd.val <<< 20 ||| BitVec.ofNat 32 ra.val <<< 16 ∧
    exec (.ctnz rd ra) s = .next { s with wreg := s.wreg.set rd (if s.wreg[ra] = 0#64 then 0#64 else 1#64) } ∧
    exec (.ctz rd ra) s = .next { s with wreg := s.wreg.set rd (if s.wreg[ra] = 0#64 then 1#64 else 0#64) }

/-- R102. -/
def Obligations.CtltResult : Prop :=
  ∀ (s : State) (rd ra rb : RegNum),
    encode (.ctlt rd ra rb) = 0x12000000#32 ||| BitVec.ofNat 32 rd.val <<< 20 ||| BitVec.ofNat 32 ra.val <<< 16 |||
      BitVec.ofNat 32 rb.val <<< 12 ∧
    exec (.ctlt rd ra rb) s =
      .next { s with wreg := s.wreg.set rd (if s.wreg[ra].toNat < s.wreg[rb].toNat then 1#64 else 0#64) }

/-- R103: `ci` is what the selector selects (R74); the one refusal is `cin` = 3. -/
def Obligations.AdcResult : Prop :=
  ∀ (s : State) (rd ra rb : RegNum),
    decodeCmd (cmdValue (.adc rd ra rb 3#2)) = .refuse .illegalCin ∧
    ∀ (cin : BitVec 2) (ci : Bool), (cin = 0#2 ∧ ci = false ∨ cin = 1#2 ∧ ci = true ∨ cin = 2#2 ∧ ci = s.cf) →
      encode (.adc rd ra rb cin) = 0x13000000#32 ||| BitVec.ofNat 32 rd.val <<< 20 ||| BitVec.ofNat 32 ra.val <<< 16 |||
        BitVec.ofNat 32 rb.val <<< 12 ||| cin.setWidth 32 <<< 10 ∧
      exec (.adc rd ra rb cin) s =
        .next { s with wreg := s.wreg.set rd (BitVec.ofNat 64 (s.wreg[ra].toNat + s.wreg[rb].toNat + ci.toNat)),
                       cf := decide (2 ^ 64 ≤ s.wreg[ra].toNat + s.wreg[rb].toNat + ci.toNat) }

/-- R104: `bi` is what the selector selects (R74); the one refusal is `cin` = 3. -/
def Obligations.SbbResult : Prop :=
  ∀ (s : State) (rd ra rb : RegNum),
    decodeCmd (cmdValue (.sbb rd ra rb 3#2)) = .refuse .illegalCin ∧
    ∀ (cin : BitVec 2) (bi : Bool), (cin = 0#2 ∧ bi = false ∨ cin = 1#2 ∧ bi = true ∨ cin = 2#2 ∧ bi = s.cf) →
      encode (.sbb rd ra rb cin) = 0x14000000#32 ||| BitVec.ofNat 32 rd.val <<< 20 ||| BitVec.ofNat 32 ra.val <<< 16 |||
        BitVec.ofNat 32 rb.val <<< 12 ||| cin.setWidth 32 <<< 10 ∧
      exec (.sbb rd ra rb cin) s =
        .next { s with wreg := s.wreg.set rd
                         (BitVec.ofNat 64 (s.wreg[ra].toNat + 2 ^ 65 - s.wreg[rb].toNat - bi.toNat)),
                       cf := decide (s.wreg[ra].toNat < s.wreg[rb].toNat + bi.toNat) }

/-! ## The prime-field engine -/

/-- R121: total on u128; reduction modulo P, idempotent, below 2P; P and 2^127 for the two values at or above 2P. -/
def Obligations.FredResult : Prop :=
  ∀ (s : State) (rd ra : RegNum),
    let a := s.freg[ra].toNat
    encode (.fred rd ra) = 0x20000000#32 ||| BitVec.ofNat 32 rd.val <<< 20 ||| BitVec.ofNat 32 ra.val <<< 16 ∧
    exec (.fred rd ra) s =
      .next { s with freg := s.freg.set rd (BitVec.ofNat 128 (if a < Config.P then a else a - Config.P)) } ∧
    (a < 2 * Config.P → (if a < Config.P then a else a - Config.P) = a % Config.P ∧
      fieldReduce (fieldReduce s.freg[ra]) = fieldReduce s.freg[ra]) ∧
    (a = 2 ^ 128 - 2 → exec (.fred rd ra) s = .next { s with freg := s.freg.set rd (BitVec.ofNat 128 Config.P) }) ∧
    (a = 2 ^ 128 - 1 → exec (.fred rd ra) s = .next { s with freg := s.freg.set rd (BitVec.ofNat 128 (2 ^ 127)) })

/-- R122. -/
def Obligations.FaddResult : Prop :=
  ∀ (s : State) (rd ra rb : RegNum), s.freg[ra].toNat < Config.P → s.freg[rb].toNat < Config.P →
    encode (.fadd rd ra rb) = 0x21000000#32 ||| BitVec.ofNat 32 rd.val <<< 20 ||| BitVec.ofNat 32 ra.val <<< 16 |||
      BitVec.ofNat 32 rb.val <<< 12 ∧
    exec (.fadd rd ra rb) s =
      .next { s with freg := s.freg.set rd (BitVec.ofNat 128 ((s.freg[ra].toNat + s.freg[rb].toNat) % Config.P)) }

/-- R123. -/
def Obligations.FsubResult : Prop :=
  ∀ (s : State) (rd ra rb : RegNum), s.freg[ra].toNat < Config.P → s.freg[rb].toNat < Config.P →
    encode (.fsub rd ra rb) = 0x22000000#32 ||| BitVec.ofNat 32 rd.val <<< 20 ||| BitVec.ofNat 32 ra.val <<< 16 |||
      BitVec.ofNat 32 rb.val <<< 12 ∧
    exec (.fsub rd ra rb) s =
      .next { s with freg := s.freg.set rd
                       (BitVec.ofNat 128 ((s.freg[ra].toNat + Config.P - s.freg[rb].toNat) % Config.P)) }

/-- R124. -/
def Obligations.FnegResult : Prop :=
  ∀ (s : State) (rd ra : RegNum), s.freg[ra].toNat < Config.P →
    encode (.fneg rd ra) = 0x23000000#32 ||| BitVec.ofNat 32 rd.val <<< 20 ||| BitVec.ofNat 32 ra.val <<< 16 ∧
    exec (.fneg rd ra) s =
      .next { s with freg := s.freg.set rd
                       (BitVec.ofNat 128 (if s.freg[ra].toNat = 0 then 0 else Config.P - s.freg[ra].toNat)) }

/-- R125. -/
def Obligations.FmulResult : Prop :=
  ∀ (s : State) (rd ra rb : RegNum), s.freg[ra].toNat < Config.P → s.freg[rb].toNat < Config.P →
    encode (.fmul rd ra rb) = 0x24000000#32 ||| BitVec.ofNat 32 rd.val <<< 20 ||| BitVec.ofNat 32 ra.val <<< 16 |||
      BitVec.ofNat 32 rb.val <<< 12 ∧
    exec (.fmul rd ra rb) s =
      .next { s with freg := s.freg.set rd (BitVec.ofNat 128 (s.freg[ra].toNat * s.freg[rb].toNat % Config.P)) }

/-- R126: the square, and what `FMUL Fd, Fa, Fa` gives. -/
def Obligations.FsqrResult : Prop :=
  ∀ (s : State) (rd ra : RegNum), s.freg[ra].toNat < Config.P →
    encode (.fsqr rd ra) = 0x25000000#32 ||| BitVec.ofNat 32 rd.val <<< 20 ||| BitVec.ofNat 32 ra.val <<< 16 ∧
    exec (.fsqr rd ra) s =
      .next { s with freg := s.freg.set rd (BitVec.ofNat 128 (s.freg[ra].toNat * s.freg[ra].toNat % Config.P)) } ∧
    exec (.fsqr rd ra) s = exec (.fmul rd ra ra) s

/-- R127: the canonical h with 2 · h ≡ a (mod P). -/
def Obligations.FhalfResult : Prop :=
  ∀ (s : State) (rd ra : RegNum), s.freg[ra].toNat < Config.P →
    let a := s.freg[ra].toNat
    let h := if a % 2 = 0 then a / 2 else (a + Config.P) / 2
    encode (.fhalf rd ra) = 0x26000000#32 ||| BitVec.ofNat 32 rd.val <<< 20 ||| BitVec.ofNat 32 ra.val <<< 16 ∧
    exec (.fhalf rd ra) s = .next { s with freg := s.freg.set rd (BitVec.ofNat 128 h) } ∧
    h < Config.P ∧ 2 * h % Config.P = a

/-- R128, by the value. -/
def Obligations.Fpow125Result : Prop :=
  ∀ (s : State) (rd ra : RegNum), s.freg[ra].toNat < Config.P →
    encode (.fpow125 rd ra) = 0x27000000#32 ||| BitVec.ofNat 32 rd.val <<< 20 ||| BitVec.ofNat 32 ra.val <<< 16 ∧
    exec (.fpow125 rd ra) s =
      .next { s with freg := s.freg.set rd (BitVec.ofNat 128 (s.freg[ra].toNat ^ (2 ^ 125 - 1) % Config.P)) }

/-- R129: the Fermat power, the unique inverse for a ≠ 0, and 0 for 0. -/
def Obligations.FinvResult : Prop :=
  ∀ (s : State) (rd ra : RegNum), s.freg[ra].toNat < Config.P →
    ∃ v : Nat, v < Config.P ∧
      encode (.finv rd ra) = 0x28000000#32 ||| BitVec.ofNat 32 rd.val <<< 20 ||| BitVec.ofNat 32 ra.val <<< 16 ∧
      exec (.finv rd ra) s = .next { s with freg := s.freg.set rd (BitVec.ofNat 128 v) } ∧
      v = s.freg[ra].toNat ^ (2 ^ 127 - 3) % Config.P ∧
      (s.freg[ra].toNat ≠ 0 → s.freg[ra].toNat * v % Config.P = 1 ∧
        ∀ w : Nat, w < Config.P → s.freg[ra].toNat * w % Config.P = 1 → w = v) ∧
      (s.freg[ra].toNat = 0 → v = 0)

/-- R120: on any operands, canonical or not, a field command completes, is not refused, and changes nothing but its
destination (and the model's count of free values, log 4). -/
def Obligations.FieldCommandsCompleteOnEveryOperand : Prop :=
  ∀ (s : State) (rd ra rb : RegNum) (i : Instr),
    i ∈ [.fadd rd ra rb, .fsub rd ra rb, .fneg rd ra, .fmul rd ra rb, .fsqr rd ra, .fhalf rd ra, .fpow125 rd ra,
      .finv rd ra] →
    ∃ x n, exec i s = .next { s with freg := s.freg.set rd x, draws := n }

/-- R131: closure, the inverse law, the halve law, idempotence of reduction below 2P. -/
def Obligations.FieldLaws : Prop :=
  (∀ a b : FieldWord, a.toNat < Config.P → b.toNat < Config.P →
    (fieldAdd a b).toNat < Config.P ∧ (fieldSub a b).toNat < Config.P ∧ (fieldMul a b).toNat < Config.P ∧
    (fieldSqr a).toNat < Config.P ∧ (fieldNeg a).toNat < Config.P ∧ (fieldHalve a).toNat < Config.P ∧
    (fieldPow125 a).toNat < Config.P ∧ (fieldInvert a).toNat < Config.P ∧ fieldMul (fieldHalve a) 2#128 = a ∧
    (a.toNat ≠ 0 → fieldMul a (fieldInvert a) = 1#128)) ∧
  (∀ a : FieldWord, a.toNat < 2 * Config.P → fieldReduce (fieldReduce a) = fieldReduce a)

/-- R128: the chain of eleven multiplications that the spec offers as a refinement gives the value. -/
def Obligations.PowerChainRefinesFpow125 : Prop :=
  ∀ a : FieldWord, a.toNat < Config.P → fieldPowChain a = fieldPow125 a

/-! ## The scalar engine -/

/-- R153, with R151's function. -/
def Obligations.MpaddResult : Prop :=
  ∀ (s : State) (rd ra rb : RegNum),
    encode (.mpadd rd ra rb) = 0x30000000#32 ||| BitVec.ofNat 32 rd.val <<< 20 ||| BitVec.ofNat 32 ra.val <<< 16 |||
      BitVec.ofNat 32 rb.val <<< 12 ∧
    exec (.mpadd rd ra rb) s =
      .next { s with sreg := s.sreg.set rd (BitVec.ofNat 256 (s.sreg[ra].toNat + s.sreg[rb].toNat)),
                     cf := decide (2 ^ 256 ≤ s.sreg[ra].toNat + s.sreg[rb].toNat) }

/-- R154, with R152's function. -/
def Obligations.MpsubResult : Prop :=
  ∀ (s : State) (rd ra rb : RegNum),
    encode (.mpsub rd ra rb) = 0x31000000#32 ||| BitVec.ofNat 32 rd.val <<< 20 ||| BitVec.ofNat 32 ra.val <<< 16 |||
      BitVec.ofNat 32 rb.val <<< 12 ∧
    exec (.mpsub rd ra rb) s =
      .next { s with sreg := s.sreg.set rd (BitVec.ofNat 256 (s.sreg[ra].toNat + 2 ^ 256 - s.sreg[rb].toNat)),
                     cf := decide (s.sreg[ra].toNat < s.sreg[rb].toNat) }

/-- R151, R152: on any number n of words, `mp_add` and `mp_sub` are addition and subtraction modulo 2^(64n) with the
carry or borrow out, and equal the ripple chains of the word primitives from word 0 up, with none into word 0. -/
def Obligations.RippleChainsEqualWideAddAndSub : Prop :=
  ∀ (n : Nat) (as bs : List Word), as.length = n → bs.length = n →
    let a := wordsValue as
    let b := wordsValue bs
    mpAdd (BitVec.ofNat (64 * n) a) (BitVec.ofNat (64 * n) b) =
      (BitVec.ofNat (64 * n) (a + b), decide (2 ^ (64 * n) ≤ a + b)) ∧
    mpAdd (BitVec.ofNat (64 * n) a) (BitVec.ofNat (64 * n) b) =
      (BitVec.ofNat (64 * n) (wordsValue (rippleAdd false as bs).1), (rippleAdd false as bs).2) ∧
    mpSub (BitVec.ofNat (64 * n) a) (BitVec.ofNat (64 * n) b) =
      (BitVec.ofNat (64 * n) (a + 2 ^ (64 * n) - b), decide (a < b)) ∧
    mpSub (BitVec.ofNat (64 * n) a) (BitVec.ofNat (64 * n) b) =
      (BitVec.ofNat (64 * n) (wordsValue (rippleSub false as bs).1), (rippleSub false as bs).2)

/-- R155: the formula on every pair of operands, and the law on canonical ones. -/
def Obligations.SsubmResult : Prop :=
  ∀ (s : State) (rd ra rb : RegNum),
    let a := s.sreg[ra].toNat
    let b := s.sreg[rb].toNat
    let order := Config.curve.order.toNat
    ∃ v : Nat, v < 2 ^ 256 ∧
      encode (.ssubm rd ra rb) = 0x33000000#32 ||| BitVec.ofNat 32 rd.val <<< 20 ||| BitVec.ofNat 32 ra.val <<< 16 |||
        BitVec.ofNat 32 rb.val <<< 12 ∧
      exec (.ssubm rd ra rb) s = .next { s with sreg := s.sreg.set rd (BitVec.ofNat 256 v) } ∧
      (b ≤ a → v = a - b) ∧ (a < b → v = (a + 2 ^ 256 - b + order) % 2 ^ 256) ∧
      (a < order → b < order → v = (a + order - b) % order)

/-- R156: the formula on every pair of operands, and the law on canonical ones. -/
def Obligations.SaddmResult : Prop :=
  ∀ (s : State) (rd ra rb : RegNum),
    let a := s.sreg[ra].toNat
    let b := s.sreg[rb].toNat
    let sum := (a + b) % 2 ^ 256
    let order := Config.curve.order.toNat
    ∃ v : Nat, v < 2 ^ 256 ∧
      encode (.saddm rd ra rb) = 0x32000000#32 ||| BitVec.ofNat 32 rd.val <<< 20 ||| BitVec.ofNat 32 ra.val <<< 16 |||
        BitVec.ofNat 32 rb.val <<< 12 ∧
      exec (.saddm rd ra rb) s = .next { s with sreg := s.sreg.set rd (BitVec.ofNat 256 v) } ∧
      (order ≤ sum → v = sum - order) ∧ (sum < order → v = sum) ∧
      (a < order → b < order → v = (a + b) % order)

/-- R157: the exact value on every pair of operands, the congruence, and when the result is canonical. -/
def Obligations.MmulResult : Prop :=
  ∀ (s : State) (rd ra rb : RegNum),
    let ma := s.sreg[ra].toNat
    let mb := s.sreg[rb].toNat
    let order := Config.curve.order.toNat
    let q := ma * mb * Config.curve.ninv.toNat % 2 ^ 256
    let total := ma * mb + q * order
    ∃ v : Nat, v < 2 ^ 256 ∧
      encode (.mmul rd ra rb) = 0x34000000#32 ||| BitVec.ofNat 32 rd.val <<< 20 ||| BitVec.ofNat 32 ra.val <<< 16 |||
        BitVec.ofNat 32 rb.val <<< 12 ∧
      exec (.mmul rd ra rb) s = .next { s with sreg := s.sreg.set rd (BitVec.ofNat 256 v) } ∧
      total % 2 ^ 256 = 0 ∧
      (order ≤ total / 2 ^ 256 → v = total / 2 ^ 256 - order) ∧ (total / 2 ^ 256 < order → v = total / 2 ^ 256) ∧
      v * 2 ^ 256 % order = ma * mb % order ∧ (ma * mb < 2 ^ 256 * order → v < order)

/-- R157: the branch-free last line, "using the same mask technique", equals the conditional subtraction, for any
constants. -/
def Obligations.MontgomeryMaskFormAgrees : Prop :=
  ∀ (c : CurveParams) (ma mb : Scalar), montgomeryMultiplyMasked c ma mb = montgomeryMultiply c ma mb

/-- R158: for every u256. -/
def Obligations.TomontResult : Prop :=
  ∀ (s : State) (rd ra : RegNum),
    encode (.tomont rd ra) = 0x35000000#32 ||| BitVec.ofNat 32 rd.val <<< 20 ||| BitVec.ofNat 32 ra.val <<< 16 ∧
    exec (.tomont rd ra) s =
      .next { s with sreg := s.sreg.set rd
                       (BitVec.ofNat 256 (s.sreg[ra].toNat * 2 ^ 256 % Config.curve.order.toNat)) }

/-- R159: for every u256, the canonical v with v · R ≡ a; the way back from `toMontgomery` for a canonical one. -/
def Obligations.FrommontResult : Prop :=
  ∀ (s : State) (rd ra : RegNum),
    ∃ v : Nat, v < Config.curve.order.toNat ∧
      encode (.frommont rd ra) = 0x36000000#32 ||| BitVec.ofNat 32 rd.val <<< 20 ||| BitVec.ofNat 32 ra.val <<< 16 ∧
      exec (.frommont rd ra) s = .next { s with sreg := s.sreg.set rd (BitVec.ofNat 256 v) } ∧
      v * 2 ^ 256 % Config.curve.order.toNat = s.sreg[ra].toNat % Config.curve.order.toNat ∧
      ∀ a : Scalar, a.toNat < Config.curve.order.toNat → fromMontgomery Config.curve (toMontgomery Config.curve a) = a

/-- R160: for every u256. -/
def Obligations.SmodrResult : Prop :=
  ∀ (s : State) (rd ra : RegNum),
    encode (.smodr rd ra) = 0x37000000#32 ||| BitVec.ofNat 32 rd.val <<< 20 ||| BitVec.ofNat 32 ra.val <<< 16 ∧
    exec (.smodr rd ra) s =
      .next { s with sreg := s.sreg.set rd (BitVec.ofNat 256 (s.sreg[ra].toNat % Config.curve.order.toNat)) }

/-- R161: odd always, and congruent to the operand where the sum does not wrap. -/
def Obligations.MkoddResult : Prop :=
  ∀ (s : State) (rd ra : RegNum),
    let k := s.sreg[ra].toNat
    let order := Config.curve.order.toNat
    let v := if k % 2 = 0 then (k + order) % 2 ^ 256 else k
    encode (.mkodd rd ra) = 0x38000000#32 ||| BitVec.ofNat 32 rd.val <<< 20 ||| BitVec.ofNat 32 ra.val <<< 16 ∧
    exec (.mkodd rd ra) s = .next { s with sreg := s.sreg.set rd (BitVec.ofNat 256 v) } ∧
    v % 2 = 1 ∧ (k + order < 2 ^ 256 → v % order = k % order)

/-- R159, R164: the round trip through the Montgomery domain, and the product through it, for any constants that meet
R7's relations (the primality of `ORDER` is not asked for: log 18). -/
def Obligations.MontgomeryDomainLaws : Prop :=
  ∀ c : CurveParams, c.Relations → ∀ x y : Scalar,
    (x.toNat < c.order.toNat → fromMontgomery c (toMontgomery c x) = x) ∧
    (fromMontgomery c (montgomeryMultiply c (toMontgomery c x) (toMontgomery c y))).toNat =
      x.toNat * y.toNat % c.order.toNat

/-- R164: the ring laws on canonical operands, the round trip, the two laws of `makeOdd` and the product through the
Montgomery domain, for any constants that meet R7's relations (the primality of `ORDER` is not asked for: log 18); and
the four commands TOMONT, TOMONT, MMUL, FROMMONT, run in this order, compute that product on the machine. -/
def Obligations.ScalarEngineLaws : Prop :=
  (∀ c : CurveParams, c.Relations →
    (∀ a b : Scalar, a.toNat < c.order.toNat → b.toNat < c.order.toNat →
      (addModOrder c a b).toNat = (a.toNat + b.toNat) % c.order.toNat ∧
      (subtractModOrder c a b).toNat = (a.toNat + c.order.toNat - b.toNat) % c.order.toNat) ∧
    (∀ a : Scalar, a.toNat < c.order.toNat → fromMontgomery c (toMontgomery c a) = a) ∧
    (∀ k : Scalar, (makeOdd c k).toNat % 2 = 1 ∧
      (k.toNat + c.order.toNat < 2 ^ 256 → (makeOdd c k).toNat % c.order.toNat = k.toNat % c.order.toNat)) ∧
    ∀ x y : Scalar, (productThroughDomain c x y).toNat = x.toNat * y.toNat % c.order.toNat) ∧
  ∀ (s : State) (d e a b : RegNum), d ≠ e → b ≠ d →
    ∃ s₁ s₂ s₃ s₄, exec (.tomont d a) s = .next s₁ ∧ exec (.tomont e b) s₁ = .next s₂ ∧
      exec (.mmul d d e) s₂ = .next s₃ ∧ exec (.frommont d d) s₃ = .next s₄ ∧
      s₄.sreg[d].toNat = s.sreg[a].toNat * s.sreg[b].toNat % Config.curve.order.toNat

/-- R7: the constants of the machine (the spec's defaults, PRESUMED, log 6) meet the relations the source gives. -/
def Obligations.CurveConstantsMeetTheirRelations : Prop := Config.curve.Relations

/-- R7: `ORDER` (the spec's default, PRESUMED, log 6) is a prime, and with it the constants of the machine meet every
constraint of the rule. -/
def Obligations.CurveOrderIsPrime : Prop := Config.curve.order.toNat.Prime ∧ Config.curve.Valid

/-! ## SchnorrQ -/

/-- R186: what SIGN writes, step by step, with `s = (r + h · a) mod ORDER`; nothing but `SIG` changes. -/
def Obligations.SignResult : Prop :=
  ∀ s : State,
    let k := Config.hash s.subseed.toList 64
    let r := leInt ((Config.hash (k.toList.drop 32 ++ s.digest.toList) 64).toList.take 32)
    let renc := Config.encodePoint (Config.fixedBaseMul (BitVec.ofNat 256 r))
    let h := leInt ((Config.hash (renc.toList ++ s.pubkey.toList ++ s.digest.toList) 64).toList.take 32)
    let a := leInt (k.toList.take 32)
    encode .sign = 0x40000000#32 ∧
    exec .sign s =
      .next { s with sig := (renc ++ leBytes ((r + h * a) % Config.curve.order.toNat) 32 : Vector Byte (32 + 32)) }

/-- R185: the signature is a function of the three input buffers and of nothing else. -/
def Obligations.SignDependsOnlyOnItsInputs : Prop :=
  ∀ s t : State, s.subseed = t.subseed → s.pubkey = t.pubkey → s.digest = t.digest →
    ∃ g : Vector Byte 64, exec .sign s = .next { s with sig := g } ∧ exec .sign t = .next { t with sig := g }

/-- R183, R186: a signature that SIGN writes has byte 63 zero and the top two bits of byte 62 zero. -/
def Obligations.SignatureScalarFieldIsCanonical : Prop :=
  ∀ s : State, ∃ t, exec .sign s = .next t ∧ t.sig[63] = 0#8 ∧ t.sig[62] &&& 0xC0#8 = 0#8

/-- R188: VERIFY always completes; `VOK` is 1 exactly when the encoding bits are clear, the key decodes, the
double-scalar multiplication succeeds and its point encodes to the R part. -/
def Obligations.VerifyResult : Prop :=
  ∀ s : State,
    let h := leInt ((Config.hash (s.sig.toList.take 32 ++ s.pubkey.toList ++ s.digest.toList) 64).toList.take 32)
    let sc := leInt (s.sig.toList.drop 32)
    encode .verify = 0x41000000#32 ∧
    ∃ b : Bool, exec .verify s = .next { s with vok := b } ∧
      (b = true ↔ s.pubkey[31] &&& 0x80#8 = 0#8 ∧ s.sig[15] &&& 0x80#8 = 0#8 ∧ s.sig[62] &&& 0xC0#8 = 0#8 ∧
        s.sig[63] = 0#8 ∧
        ∃ A Q, Config.decodePoint s.pubkey = some A ∧
          Config.doubleScalarMulVerify (BitVec.ofNat 256 sc) (BitVec.ofNat 256 h) A = some Q ∧
          (Config.encodePoint Q).toList = s.sig.toList.take 32)

/-- R188 step 1: a non-canonical encoding is rejected whatever the external primitives are. -/
def Obligations.NonCanonicalSignaturesAreRejected : Prop :=
  ∀ (Point : Type) (ext : Externals Point) (tag : Fin 32) (pk md : Vector Byte 32) (sig : Vector Byte 64),
    (pk[tag] &&& 0x80#8 ≠ 0#8 ∨ sig[15] &&& 0x80#8 ≠ 0#8 ∨ sig[62] &&& 0xC0#8 ≠ 0#8 ∨ sig[63] ≠ 0#8) →
      schnorrVerify ext tag pk md sig = false

/-- R190: the signature round trip, for any externals, constants and group of points that meet H1 to H5 (the order of
the group enters only through ORDER · T = 0, and of R7's constraints the primality of `ORDER` is not asked for: log 18). -/
def Obligations.SignedDigestsVerify : Prop :=
  ∀ (Point : Type) (_ : AddCommGroup Point) (G : Point) (ext : Externals Point) (c : CurveParams) (tag : Fin 32)
    (subseed pk md : Vector Byte 32),
    c.Relations → (∀ T : Point, c.order.toNat • T = 0) →
    (∀ k : Scalar, ext.fixedBaseMul k = (k.toNat % c.order.toNat) • G) →
    (∀ T : Point, ext.decode (ext.encode T) = some T) →
    (∀ (s h : Scalar) (A : Point), s.toNat < c.order.toNat →
      ext.doubleScalarMulVerify s h A = some ((s.toNat % c.order.toNat) • G - (h.toNat % c.order.toNat) • A)) →
    (∀ T : Point, (ext.encode T)[15] &&& 0x80#8 = 0#8) → pk[tag] &&& 0x80#8 = 0#8 →
    pk = ext.encode (leInt ((ext.hash subseed.toList 64).toList.take 32) • G) →
      schnorrVerify ext tag pk md (schnorrSign ext c subseed pk md) = true

/-! ## What a command leaves alone, and the error record -/

/-- R78, R25, R26: a command writes its destination register, `CF` only where it is one of the four of R25, `SIG` only
where it is SIGN, `VOK` only where it is VERIFY; no other register, no input buffer, no move of the host, and, where it
is well formed, not the error record (R215; an ill-formed term is no command: log 12). -/
def Obligations.CommandsWriteOnlyTheirOwnState : Prop :=
  ∀ (i : Instr) (s t : State), exec i s = .next t →
    (∀ r : RegNum, destination i ≠ some (.w, r) → t.wreg[r] = s.wreg[r]) ∧
    (∀ r : RegNum, destination i ≠ some (.f, r) → t.freg[r] = s.freg[r]) ∧
    (∀ r : RegNum, destination i ≠ some (.s, r) → t.sreg[r] = s.sreg[r]) ∧
    (writesCarry i = false → t.cf = s.cf) ∧ (i ≠ .sign → t.sig = s.sig) ∧ (i ≠ .verify → t.vok = s.vok) ∧
    t.subseed = s.subseed ∧ t.pubkey = s.pubkey ∧ t.digest = s.digest ∧ t.port = s.port ∧ t.reply = s.reply ∧
    (i.wellFormed = true → t.err = s.err ∧ t.ecode = s.ecode ∧ t.ecmd = s.ecmd)

/-- R215: a decoded command always completes and never raises: the error record stays as it is. -/
def Obligations.DecodedCommandsNeverRaise : Prop :=
  ∀ (v : Word) (i : Instr) (s : State), decodeCmd v = .command i →
    ∃ t, exec i s = .next t ∧ t.err = s.err ∧ t.ecode = s.ecode ∧ t.ecmd = s.ecmd

/-- R28, R210, R211: every step keeps the error record consistent and true: `ECODE` and `ECMD` are 0 while `ERR` is 0,
and while it is 1 `ECMD` is a value that the decoder refuses with `ECODE`. -/
def Obligations.StepKeepsErrorRecord : Prop :=
  ∀ s t : State, errorRecordOk s = true → errorRecordTrue s → step s = .next t →
    errorRecordOk t = true ∧ errorRecordTrue t

/-- R231: the record is consistent after reset. -/
def Obligations.ResetHasErrorRecord : Prop := errorRecordOk State.reset = true ∧ errorRecordTrue State.reset

/-- R55, R215, R217: with a host that keeps the protocol every step completes, and the host still keeps it (the step
with no move to come is the model's choice, log 2). -/
def Obligations.PoliteHostIsNeverStopped : Prop :=
  ∀ s : State, politeHost s = true → ∃ t, step s = .next t ∧ politeHost t = true

/-- R58: a step serves the first move of the host and leaves the others, in their order (that the moves to come stand
in the state is the model's choice, log 1). -/
def Obligations.StepServesMovesInOrder : Prop :=
  ∀ (s t : State) (e : HostEvent) (rest : List HostEvent), s.port = e :: rest → step s = .next t → t.port = rest

/-! ## Reset and the host window -/

/-- R231: what reset leaves, from power-on and as a move of the host in any state; nothing is said of the rest. That a
reset keeps the host's later moves (`t.port = rest`) is the model's (DEDUCED, log 20): neither R230 nor R231 says it. -/
def Obligations.ResetClearsFlagAndStatus : Prop :=
  (State.reset.cf = false ∧ State.reset.err = false ∧ State.reset.vok = false ∧ State.reset.ecode = 0#8 ∧
    State.reset.ecmd = 0#64) ∧
  ∀ (s : State) (rest : List HostEvent), s.port = .reset :: rest →
    ∃ t, step s = .next t ∧ t.cf = false ∧ t.err = false ∧ t.vok = false ∧ t.ecode = 0#8 ∧ t.ecmd = 0#64 ∧ t.port = rest

/-- R52, with R30, R51, R54: a read returns the word at its offset and has no effect on any state of the machine. -/
def Obligations.HostReadsReturnTheirWord : Prop :=
  ∀ (s : State) (rest : List HostEvent),
    let returns := fun (off : Nat) (x : Word) =>
      s.port = .read off 8 :: rest → step s = .next { s with port := rest, reply := some x }
    returns 0x000 0#64 ∧ returns 0x010 s.ecmd ∧
    returns 0x008 (BitVec.ofNat 64 (s.err.toNat + 2 * s.vok.toNat + 4 * s.cf.toNat + 2 ^ 8 * s.ecode.toNat)) ∧
    (∀ i : Fin 8, returns (0x040 + 8 * i.val) s.wreg[i]) ∧
    (∀ (i : Fin 8) (j : Fin 2), returns (0x080 + 16 * i.val + 8 * j.val) (s.freg[i].extractLsb' (64 * j.val) 64)) ∧
    (∀ (i : Fin 8) (j : Fin 4), returns (0x100 + 32 * i.val + 8 * j.val) (s.sreg[i].extractLsb' (64 * j.val) 64)) ∧
    (∀ j : Fin 4, returns (0x200 + 8 * j.val) (BitVec.ofNat 64 (leInt ((s.subseed.toList.drop (8 * j.val)).take 8)))) ∧
    (∀ j : Fin 4, returns (0x220 + 8 * j.val) (BitVec.ofNat 64 (leInt ((s.pubkey.toList.drop (8 * j.val)).take 8)))) ∧
    (∀ j : Fin 4, returns (0x240 + 8 * j.val) (BitVec.ofNat 64 (leInt ((s.digest.toList.drop (8 * j.val)).take 8)))) ∧
    (∀ j : Fin 8, returns (0x280 + 8 * j.val) (BitVec.ofNat 64 (leInt ((s.sig.toList.drop (8 * j.val)).take 8)))) ∧
    (∀ j : Fin 2, returns (0x300 + 8 * j.val) (BitVec.ofNat 64 (Config.P / 2 ^ (64 * j.val)))) ∧
    (∀ j : Fin 4, returns (0x320 + 8 * j.val) (Config.curve.order.extractLsb' (64 * j.val) 64)) ∧
    (∀ j : Fin 4, returns (0x340 + 8 * j.val) (Config.curve.rsq.extractLsb' (64 * j.val) 64)) ∧
    (∀ j : Fin 4, returns (0x360 + 8 * j.val) (Config.curve.ninv.extractLsb' (64 * j.val) 64)) ∧
    (∀ j : Fin 4, returns (0x380 + 8 * j.val) (if j.val = 0 then 1#64 else 0#64))

/-- R28: the bits of `STATUS`, its reserved bits zero, and its write-1-to-clear. -/
def Obligations.StatusReadsAndClears : Prop :=
  ∀ (s : State) (rest : List HostEvent),
    (s.port = .read 0x008 8 :: rest → ∃ x : Word, step s = .next { s with port := rest, reply := some x } ∧
      x.toNat = s.err.toNat + 2 * s.vok.toNat + 4 * s.cf.toNat + 2 ^ 8 * s.ecode.toNat) ∧
    (∀ v : Word, s.port = .write 0x008 8 v :: rest →
      (v.toNat % 2 = 1 →
        step s = .next { s with port := rest, reply := none, err := false, ecode := 0#8, ecmd := 0#64 }) ∧
      (v.toNat % 2 = 0 → step s = .next { s with port := rest, reply := none }))

/-- R53, R54: a write to a data location makes its word the value written; every other word of the window reads as
before, `STATUS` and the constants among them, and the model's own fields but the port and the reply stay. -/
def Obligations.DataWriteChangesOnlyItsWord : Prop :=
  ∀ (s : State) (rest : List HostEvent) (v : Word) (l : Loc), isData l = true →
    s.port = .write l.offset 8 v :: rest →
      ∃ t, step s = .next t ∧ t.readLoc l = v ∧ (∀ m : Loc, m ≠ l → t.readLoc m = s.readLoc m) ∧
        t.port = rest ∧ t.reply = none ∧ t.draws = s.draws

/-- R28, R30, R53: a write to `ECMD` or to a constant does nothing. -/
def Obligations.ReadOnlyWritesAreIgnored : Prop :=
  ∀ (s : State) (rest : List HostEvent) (v : Word) (off : Nat), off % 8 = 0 →
    (off = 0x010 ∨ 0x300 ≤ off ∧ off ≤ 0x30F ∨ 0x320 ≤ off ∧ off ≤ 0x39F) → s.port = .write off 8 v :: rest →
      step s = .next { s with port := rest, reply := none }

/-- R55, R51: an access of another width, at another alignment, to a gap of the map or beyond the window is refused, by
the name of the host's protocol violation. -/
def Obligations.BadAccessesAreRefused : Prop :=
  ∀ (s : State) (rest : List HostEvent) (off width : Nat) (v : Word),
    (width ≠ 8 ∨ off % 8 ≠ 0 ∨ 0x018 ≤ off ∧ off ≤ 0x03F ∨ 0x260 ≤ off ∧ off ≤ 0x27F ∨ 0x2C0 ≤ off ∧ off ≤ 0x2FF ∨
      0x310 ≤ off ∧ off ≤ 0x31F ∨ 0x3A0 ≤ off) →
    (s.port = .read off width :: rest → step s = .refused (.hostProtocolViolation off width)) ∧
    (s.port = .write off width v :: rest → step s = .refused (.hostProtocolViolation off width))

/-- R50: the window is the 0x400 bytes at `BASE`: an address in it is the move at that offset. That an access at any
other address is no move is the model's choice (DESIGN CHOICE, log 14), which R50 does not say. -/
def Obligations.BusAddressesReachTheWindow : Prop :=
  ∀ (s : State) (width : Nat) (v : Word),
    (∀ off, off < 0x400 → s.submitBusRead (Config.base + off) width = s.submit (.read off width) ∧
      s.submitBusWrite (Config.base + off) width v = s.submit (.write off width v)) ∧
    (∀ addr, addr < Config.base ∨ Config.base + 0x400 ≤ addr →
      s.submitBusRead addr width = s ∧ s.submitBusWrite addr width v = s)

/-! ## Assembler syntax -/

/-- R79: every well-formed command has a text, and its mnemonic and operands read back to it. -/
def Obligations.AssemblerReadsItsOwnText : Prop :=
  ∀ i : Instr, i.wellFormed = true →
    ∃ ops, operandTexts i = some ops ∧ assemble (mnemonic i) ops = some i

/-- R81: the three pseudo-instructions expand as the rule says, and there are no others. -/
def Obligations.PseudoInstructionsExpand : Prop :=
  (∀ d a b : RegNum,
    assemble "ADD" [regText "W" d, regText "W" a, regText "W" b] = some (.adc d a b 0#2) ∧
    assemble "SUB" [regText "W" d, regText "W" a, regText "W" b] = some (.sbb d a b 0#2) ∧
    assemble "FDBL" [regText "F" d, regText "F" a] = some (.fadd d a a)) ∧
  ∀ (name : String) (operands : List String) (i : Instr), assemble name operands = some i →
    name = mnemonic i ∨ name = "ADD" ∨ name = "SUB" ∨ name = "FDBL"

/-- R80, with the offsets of R51: move `j` of `host.read` is the `MemRead` of word `j` of the location, move `j` of
`host.write` is the `MemWrite` of the value's word `j` there; there is one move for each word, and the window accepts each
(R55). A byte string is taken eight bytes to a word, little-endian (R54). The names of the registers, of the single words of
`F` and `S` and of the buffers stand for their offsets; a command line is the write of its word to `CMD`. That the directives
know further names (`CMD`, `STATUS`, `ECMD`, the constants, the words of a buffer) is the model's choice (DESIGN CHOICE,
log 19). -/
def Obligations.HostDirectivesAreAccepted : Prop :=
  (∀ (name : String) (off n : Nat), namedLocation name = some (off, n) →
    (∃ moves, hostRead name = some moves ∧ moves.length = n ∧ moves.all acceptedMove = true ∧
      ∀ j, j < n → moves[j]? = some (.read (off + 8 * j) 8)) ∧
    (∀ words : List Word, words.length = n →
      ∃ moves, hostWrite name words = some moves ∧ moves.length = n ∧ moves.all acceptedMove = true ∧
        ∀ (j : Nat) (v : Word), words[j]? = some v → moves[j]? = some (.write (off + 8 * j) 8 v)) ∧
    ∀ bytes : List Byte, bytes.length = 8 * n →
      ∃ moves, hostWriteBytes name bytes = some moves ∧ moves.length = n ∧ moves.all acceptedMove = true ∧
        ∀ j, j < n → moves[j]? =
          some (.write (off + 8 * j) 8 (BitVec.ofNat 64 (leInt ((bytes.drop (8 * j)).take 8))))) ∧
  (∀ i : Fin 8,
    namedLocation ("W" ++ toString i.val) = some (0x040 + 8 * i.val, 1) ∧
    namedLocation ("F" ++ toString i.val) = some (0x080 + 16 * i.val, 2) ∧
    (∀ j : Fin 2, namedLocation ("F" ++ toString i.val ++ "." ++ toString j.val) =
      some (0x080 + 16 * i.val + 8 * j.val, 1)) ∧
    namedLocation ("S" ++ toString i.val) = some (0x100 + 32 * i.val, 4) ∧
    ∀ j : Fin 4, namedLocation ("S" ++ toString i.val ++ "." ++ toString j.val) =
      some (0x100 + 32 * i.val + 8 * j.val, 1)) ∧
  namedLocation "SUBSEED" = some (0x200, 4) ∧ namedLocation "PUBKEY" = some (0x220, 4) ∧
  namedLocation "DIGEST" = some (0x240, 4) ∧ namedLocation "SIG" = some (0x280, 8) ∧
  ∀ i : Instr, commandLine i = .write 0x000 8 ((encode i).setWidth 64)
end

