-- ==== Sys2Proof/Laws/Bytes.lean ====
section
/-! SUPPORT. Laws of byte strings and of words within wider values. -/

namespace Sys2Proof.Machine

@[simp] theorem leInt_nil : leInt [] = 0 := rfl

@[simp] theorem leInt_cons (b : Byte) (l : List Byte) : leInt (b :: l) = b.toNat + 2 ^ 8 * leInt l := rfl

theorem leInt_lt (l : List Byte) : leInt l < 2 ^ (8 * l.length) := by
  induction l with
  | nil => simp
  | cons b l ih =>
    have hb := b.isLt
    have hs : 2 ^ (8 * (l.length + 1)) = 2 ^ 8 * 2 ^ (8 * l.length) := by rw [← pow_add]; congr 1; ring
    simp only [leInt_cons, List.length_cons, hs]
    omega

theorem leInt_append (l m : List Byte) : leInt (l ++ m) = leInt l + 2 ^ (8 * l.length) * leInt m := by
  induction l with
  | nil => simp
  | cons b l ih =>
    have hs : 2 ^ (8 * (l.length + 1)) = 2 ^ 8 * 2 ^ (8 * l.length) := by rw [← pow_add]; congr 1; ring
    simp only [List.cons_append, leInt_cons, List.length_cons, hs, ih]
    ring

/-- Byte `k` of a string is bits 8k+7:8k of its `le_int`. -/
theorem leInt_div_mod (l : List Byte) (k : Nat) (hk : k < l.length) :
    leInt l / 2 ^ (8 * k) % 2 ^ 8 = (l[k]).toNat := by
  induction l generalizing k with
  | nil => simp at hk
  | cons b l ih =>
    have hb := b.isLt
    cases k with
    | zero => simp only [leInt_cons, List.getElem_cons_zero, Nat.mul_zero, pow_zero, Nat.div_one]; omega
    | succ k =>
      have hs : 2 ^ (8 * (k + 1)) = 2 ^ 8 * 2 ^ (8 * k) := by rw [← pow_add]; congr 1; ring
      have hd : (b.toNat + 2 ^ 8 * leInt l) / 2 ^ 8 = leInt l := by omega
      simp only [leInt_cons, List.getElem_cons_succ, hs, ← Nat.div_div_eq_div_mul, hd]
      exact ih k (by simpa using hk)

theorem leInt_ofFn_bytes (v n : Nat) :
    leInt (List.ofFn fun i : Fin n => BitVec.ofNat 8 (v / 2 ^ (8 * i.val))) = v % 2 ^ (8 * n) := by
  induction n generalizing v with
  | zero => simp [Nat.mod_one]
  | succ n ih =>
    have hs : 2 ^ (8 * (n + 1)) = 2 ^ 8 * 2 ^ (8 * n) := by rw [← pow_add]; congr 1; ring
    have hf : (List.ofFn fun i : Fin n => BitVec.ofNat 8 (v / 2 ^ (8 * (i.val + 1)))) =
        List.ofFn fun i : Fin n => BitVec.ofNat 8 (v / 2 ^ 8 / 2 ^ (8 * i.val)) := by
      congr 1; funext i
      rw [Nat.div_div_eq_div_mul, ← pow_add]; congr 3; ring
    simp only [List.ofFn_succ, leInt_cons, Fin.val_succ, hf, ih, hs, Nat.mod_mul, Fin.val_zero, Nat.mul_zero, pow_zero,
      Nat.div_one, BitVec.toNat_ofNat]

/-- `le_int(le_bytes(v, n)) = v` for `v < 2^(8n)` (R10). -/
theorem leInt_leBytes (v n : Nat) (h : v < 2 ^ (8 * n)) : leInt (leBytes v n).toList = v := by
  have := leInt_ofFn_bytes v n
  rw [Nat.mod_eq_of_lt h] at this
  simpa [leBytes, Vector.toList_ofFn] using this

theorem leBytes_getElem (v n i : Nat) (h : i < n) : (leBytes v n)[i] = BitVec.ofNat 8 (v / 2 ^ (8 * i)) := by
  simp [leBytes]

/-- Word `j` of a value as a number. -/
theorem wordOf_toNat {n : Nat} (x : BitVec n) (j : Nat) : (wordOf x j).toNat = x.toNat / 2 ^ (64 * j) % 2 ^ 64 := by
  simp [wordOf, Nat.shiftRight_eq_div_pow]

theorem wordOf_getLsbD {n : Nat} (x : BitVec n) (j i : Nat) (hi : i < 64) :
    (wordOf x j).getLsbD i = x.getLsbD (64 * j + i) := by
  simp [wordOf, hi]

theorem setWordOf_getLsbD {n : Nat} (x : BitVec n) (j : Nat) (v : Word) (i : Nat) (hi : i < n) :
    (setWordOf x j v).getLsbD i = if i / 64 = j then v.getLsbD (i % 64) else x.getLsbD i := by
  simp only [setWordOf, BitVec.getLsbD_or, BitVec.getLsbD_and, BitVec.getLsbD_not, BitVec.getLsbD_shiftLeft,
    BitVec.getLsbD_setWidth, BitVec.getLsbD_allOnes]
  by_cases h : i / 64 = j
  · have h1 : ¬ i < 64 * j := by omega
    have h2 : i - 64 * j < 64 := by omega
    have h3 : i - 64 * j = i % 64 := by omega
    have h4 : i - 64 * j < n := by omega
    have h5 : i % 64 < 64 := by omega
    have h6 : i % 64 < n := by omega
    simp [h, h1, h3, h5, h6, hi]
  · by_cases h1 : i < 64 * j
    · simp [h, h1, hi]
    · have h2 : 64 ≤ i - 64 * j := by omega
      have h3 : ¬ i - 64 * j < 64 := by omega
      simp [h, h1, h3, hi, BitVec.getLsbD_of_ge v _ h2]

/-- A written word reads back (R53). -/
theorem wordOf_setWordOf_same {n : Nat} (x : BitVec n) (j : Nat) (v : Word) (h : 64 * j + 64 ≤ n) :
    wordOf (setWordOf x j v) j = v := by
  apply BitVec.eq_of_getLsbD_eq
  intro i hi
  have h1 : (64 * j + i) / 64 = j := by omega
  have h2 : (64 * j + i) % 64 = i := by omega
  rw [wordOf_getLsbD _ _ _ hi, setWordOf_getLsbD _ _ _ _ (by omega), if_pos h1, h2]

/-- No other word changes (R53). -/
theorem wordOf_setWordOf_other {n : Nat} (x : BitVec n) (j k : Nat) (v : Word) (h : 64 * k + 64 ≤ n) (hne : k ≠ j) :
    wordOf (setWordOf x j v) k = wordOf x k := by
  apply BitVec.eq_of_getLsbD_eq
  intro i hi
  have h1 : ¬ (64 * k + i) / 64 = j := by omega
  rw [wordOf_getLsbD _ _ _ hi, setWordOf_getLsbD _ _ _ _ (by omega), if_neg h1, wordOf_getLsbD _ _ _ hi]

/-- Byte `k` of a buffer is bits 8(k mod 8)+7 : 8(k mod 8) of the buffer's word `k div 8` (R54). -/
theorem bufWord_byte {n : Nat} (b : Vector Byte n) (k : Nat) (hk : k < n) (hn : n % 8 = 0) :
    (bufWord b (k / 8)).extractLsb' (8 * (k % 8)) 8 = b[k] := by
  have hlen : ((b.toList.drop (8 * (k / 8))).take 8).length = 8 := by simp; omega
  have hk8 : k % 8 < ((b.toList.drop (8 * (k / 8))).take 8).length := by rw [hlen]; omega
  have hlt := leInt_lt ((b.toList.drop (8 * (k / 8))).take 8)
  rw [hlen] at hlt
  have hb := leInt_div_mod _ _ hk8
  have hkk : 8 * (k / 8) + k % 8 = k := by omega
  apply BitVec.eq_of_toNat_eq
  simp only [bufWord, BitVec.extractLsb'_toNat, BitVec.toNat_ofNat, Nat.shiftRight_eq_div_pow]
  rw [Nat.mod_eq_of_lt hlt, hb]
  simp [hkk]

theorem setBufWord_getElem {n : Nat} (b : Vector Byte n) (j : Nat) (v : Word) (k : Nat) (hk : k < n) :
    (setBufWord b j v)[k] = if k / 8 = j then v.extractLsb' (8 * (k % 8)) 8 else b[k] := by
  simp [setBufWord]

/-- Two words of buffers agree when their bytes do. -/
theorem bufWord_congr {n m : Nat} (b : Vector Byte n) (d : Vector Byte m) (i j : Nat) (hi : 8 * i + 8 ≤ n)
    (hj : 8 * j + 8 ≤ m) (h : ∀ t (ht : t < 8), b[8 * i + t] = d[8 * j + t]) : bufWord b i = bufWord d j := by
  have : (b.toList.drop (8 * i)).take 8 = (d.toList.drop (8 * j)).take 8 := by
    apply List.ext_getElem
    · simp; omega
    · intro t h1 _
      have ht : t < 8 := by simp at h1; omega
      simpa using h t ht
  simp [bufWord, this]

/-- A written word of a buffer reads back (R53). -/
theorem bufWord_setBufWord_same {n : Nat} (b : Vector Byte n) (j : Nat) (v : Word) (h : 8 * j + 8 ≤ n)
    (hn : n % 8 = 0) : bufWord (setBufWord b j v) j = v := by
  apply BitVec.eq_of_getLsbD_eq
  intro i hi
  have hk : 8 * j + i / 8 < n := by omega
  have e := bufWord_byte (setBufWord b j v) (8 * j + i / 8) hk hn
  have h1 : (8 * j + i / 8) / 8 = j := by omega
  have h2 : (8 * j + i / 8) % 8 = i / 8 := by omega
  rw [setBufWord_getElem, if_pos h1, h1, h2] at e
  have := congrArg (fun x : BitVec 8 => x.getLsbD (i % 8)) e
  have h3 : i % 8 < 8 := by omega
  have h4 : 8 * (i / 8) + i % 8 = i := by omega
  simpa [h3, h4] using this

/-- No other word of a buffer changes (R53). -/
theorem bufWord_setBufWord_other {n : Nat} (b : Vector Byte n) (j k : Nat) (v : Word) (h : 8 * k + 8 ≤ n)
    (hne : k ≠ j) : bufWord (setBufWord b j v) k = bufWord b k := by
  apply bufWord_congr _ _ _ _ h h
  intro t ht
  have h1 : ¬ (8 * k + t) / 8 = j := by omega
  rw [setBufWord_getElem, if_neg h1]

end Sys2Proof.Machine
end

