-- ==== Sys2Proof/Laws/Decode.lean ====
section
/-! SUPPORT. The command word: its fields put back together, its rows, its masks (spec/30_encoding.md R71 to R77). -/

namespace Sys2Proof

set_option maxRecDepth 8000

theorem regField_ofNat (c : CmdWord) (k : Nat) :
    BitVec.ofNat 32 (regField c k).val = (c.extractLsb' k 3).setWidth 32 := by
  apply BitVec.eq_of_toNat_eq
  simp [regField]

/-- A word that meets the mask of `R3C` is its own fields put together (R72, R75). -/
theorem packWord_fields_r3c (c : CmdWord) (op : Byte) (h : c &&& 0xFF8883FF#32 = opWord op) :
    packWord op (regField c 20) (regField c 16) (regField c 12) (cinField c) = c := by
  simp only [packWord, ← h, regField_ofNat]
  apply BitVec.eq_of_getLsbD_eq
  intro i hi
  interval_cases i <;> simp [cinField]

/-- The same for `R3`. -/
theorem packWord_fields_r3 (c : CmdWord) (op : Byte) (h : c &&& 0xFF888FFF#32 = opWord op) :
    packWord op (regField c 20) (regField c 16) (regField c 12) 0#2 = c := by
  simp only [packWord, ← h, regField_ofNat]
  apply BitVec.eq_of_getLsbD_eq
  intro i hi
  interval_cases i <;> simp

/-- The same for `R2`. -/
theorem packWord_fields_r2 (c : CmdWord) (op : Byte) (h : c &&& 0xFF88FFFF#32 = opWord op) :
    packWord op (regField c 20) (regField c 16) 0 0#2 = c := by
  simp only [packWord, ← h, regField_ofNat]
  apply BitVec.eq_of_getLsbD_eq
  intro i hi
  interval_cases i <;> simp

/-- The same for `Z`. -/
theorem packWord_fields_z (c : CmdWord) (op : Byte) (h : c &&& 0xFFFFFFFF#32 = opWord op) :
    packWord op 0 0 0 0#2 = c := by
  simp only [packWord, ← h]
  apply BitVec.eq_of_getLsbD_eq
  intro i hi
  interval_cases i <;> simp

/-- All that the decoding of a row tells when it gives a command (R72, R74). -/
theorem decodeRow_spec (r : OpRow) (c : CmdWord) (i : Instr) (h : decodeRow r c = .command i) :
    c &&& r.format.mask = opWord r.op ∧ (r.format = .r3c → legalCin (cinField c) = true) ∧
      i = r.build (regField c 20) (regField c 16) (regField c 12) (cinField c) := by
  unfold decodeRow at h
  split at h
  · cases h
  · split at h
    · cases h
    · rename_i h1 h2
      refine ⟨not_not.mp h1, fun hf => ?_, by injection h with h; exact h.symm⟩
      cases hl : legalCin (cinField c) with
      | true => rfl
      | false => exact absurd ⟨hf, hl⟩ h2

/-- The word of the command that a row makes of its fields (R72, R75). -/
theorem encode_build : ∀ r ∈ opcodeTable, ∀ d a b c, encode (r.build d a b c) =
    match r.format with
    | .r3 => packWord r.op d a b 0#2
    | .r3c => packWord r.op d a b c
    | .r2 => packWord r.op d a 0 0#2
    | .z => packWord r.op 0 0 0 0#2 := by
  simp only [opcodeTable, constantTimeRows, fieldRows, scalarRows, protocolRows, List.cons_append, List.nil_append,
    List.forall_mem_cons]
  (repeat' apply And.intro) <;> first | (intro d a b c; rfl) | (intro r hr; cases hr)

/-- Only the format `R3C` can make an ill-formed command (R74). -/
theorem wellFormed_build : ∀ r ∈ opcodeTable, ∀ d a b c, (r.build d a b c).wellFormed =
    match r.format with
    | .r3 => true
    | .r3c => legalCin c
    | .r2 => true
    | .z => true := by
  simp only [opcodeTable, constantTimeRows, fieldRows, scalarRows, protocolRows, List.cons_append, List.nil_append,
    List.forall_mem_cons]
  (repeat' apply And.intro) <;> first | (intro d a b c; rfl) | (intro r hr; cases hr)

/-- No two rows have one opcode (R77). -/
theorem opcodeTable_pairwise : opcodeTable.Pairwise (fun r q => r.op ≠ q.op) := by decide

/-- Every mask contains the eight `op` bits (R77). -/
theorem mask_contains_op : ∀ f : Format, f.mask &&& 0xFF000000#32 = 0xFF000000#32 := by
  intro f
  cases f <;> decide

/-- The `op` bits of a word are its `op` field put back. -/
theorem opWord_opField (w : CmdWord) : opWord (opField w) = w &&& 0xFF000000#32 := by
  apply BitVec.eq_of_getLsbD_eq
  intro i hi
  interval_cases i <;> simp [opWord, opField]

end Sys2Proof
end

