-- ==== Sys2Proof/Laws/Field.lean ====
section
/-! SUPPORT. The values of the field functions on canonical operands (spec/41_field.md R121 to R129). -/

namespace Sys2Proof.Machine

theorem P_eq : Config.P = 170141183460469231731687303715884105727 := by decide

@[simp] theorem primeWord_toNat : primeWord.toNat = Config.P := by decide

theorem P_prime : Config.P.Prime := by
  have h : (mersenne 127).Prime := lucas_lehmer_sufficiency 127 (by norm_num) (by norm_num)
  have e : mersenne 127 = Config.P := by rw [Config.P, mersenne]
  exact e ▸ h

theorem canonicalField_iff (a : FieldWord) : canonicalField a = true ↔ a.toNat < Config.P := by
  simp [canonicalField]

/-- The masking with P keeps the low 127 bits. -/
theorem and_primeWord_toNat (a : FieldWord) : (a &&& primeWord).toNat = a.toNat % 2 ^ 127 := by
  rw [BitVec.toNat_and, primeWord_toNat]
  exact Nat.and_two_pow_sub_one_eq_mod _ _

/-- `reduce` without its intermediate value (R121). -/
theorem fieldReduce_eq (a : FieldWord) :
    fieldReduce a = if a.toNat < primeWord.toNat then a else a - primeWord := by
  by_cases h : a.toNat < primeWord.toNat
  · rw [if_pos h]
    show (if decide (a.toNat < primeWord.toNat) = true then a - primeWord + primeWord else a - primeWord) = a
    rw [if_pos (decide_eq_true h), BitVec.sub_add_cancel]
  · rw [if_neg h]
    show (if decide (a.toNat < primeWord.toNat) = true then a - primeWord + primeWord else a - primeWord) = _
    rw [if_neg (fun e => h (of_decide_eq_true e))]

/-- `reduce` on every u128 (R121). -/
theorem fieldReduce_toNat (a : FieldWord) :
    (fieldReduce a).toNat = if a.toNat < Config.P then a.toNat else a.toNat - Config.P := by
  rw [fieldReduce_eq, primeWord_toNat]
  split
  · rfl
  · rename_i h
    have ha := a.isLt
    rw [BitVec.toNat_sub, primeWord_toNat]
    rw [P_eq] at h ⊢
    omega

/-- `reduce` is reduction modulo P below 2P (R121). -/
theorem fieldReduce_mod (a : FieldWord) (h : a.toNat < 2 * Config.P) : (fieldReduce a).toNat = a.toNat % Config.P := by
  rw [fieldReduce_toNat]
  rw [P_eq] at h ⊢
  split <;> omega

theorem fieldAdd_toNat (a b : FieldWord) (ha : a.toNat < Config.P) (hb : b.toNat < Config.P) :
    (fieldAdd a b).toNat = (a.toNat + b.toNat) % Config.P := by
  have hp := P_eq
  have hs : (a + b).toNat = a.toNat + b.toNat := by rw [BitVec.toNat_add]; omega
  have ht : ((a + b + (a + b) >>> 127) &&& primeWord).toNat =
      (a.toNat + b.toNat + (a.toNat + b.toNat) / 2 ^ 127) % 2 ^ 127 := by
    rw [and_primeWord_toNat, BitVec.toNat_add, BitVec.toNat_ushiftRight, hs, Nat.shiftRight_eq_div_pow]
    omega
  rw [fieldAdd, fieldReduce_mod _ (by rw [ht]; omega), ht]
  rw [hp] at ha hb ⊢
  rcases Nat.lt_or_ge (a.toNat + b.toNat) (2 ^ 127) with h | h
  · have h1 : (a.toNat + b.toNat) / 2 ^ 127 = 0 := by omega
    rw [h1]
    omega
  · have h1 : (a.toNat + b.toNat) / 2 ^ 127 = 1 := by omega
    rw [h1]
    omega

theorem fieldSub_toNat (a b : FieldWord) (ha : a.toNat < Config.P) (hb : b.toNat < Config.P) :
    (fieldSub a b).toNat = (a.toNat + Config.P - b.toNat) % Config.P := by
  have hp := P_eq
  have hs : (a - b).toNat = (2 ^ 128 - b.toNat + a.toNat) % 2 ^ 128 := BitVec.toNat_sub a b
  have ht : ((a - b - (a - b) >>> 127) &&& primeWord).toNat =
      (2 ^ 128 - (a - b).toNat / 2 ^ 127 + (a - b).toNat) % 2 ^ 128 % 2 ^ 127 := by
    rw [and_primeWord_toNat, BitVec.toNat_sub, BitVec.toNat_ushiftRight, Nat.shiftRight_eq_div_pow]
  rw [hs] at ht
  rw [fieldSub, fieldReduce_mod _ (by rw [ht]; omega), ht]
  have hb' := b.isLt
  rw [hp] at ha hb ⊢
  rcases Nat.lt_or_ge a.toNat b.toNat with h | h
  · have h1 : (2 ^ 128 - b.toNat + a.toNat) % 2 ^ 128 = 2 ^ 128 - b.toNat + a.toNat := by omega
    rw [h1]
    omega
  · have h1 : (2 ^ 128 - b.toNat + a.toNat) % 2 ^ 128 = a.toNat - b.toNat := by omega
    rw [h1]
    omega

theorem fieldNeg_toNat (a : FieldWord) (ha : a.toNat < Config.P) :
    (fieldNeg a).toNat = (Config.P - a.toNat) % Config.P := by
  have hp := P_eq
  have hs : (primeWord - a).toNat = Config.P - a.toNat := by rw [BitVec.toNat_sub, primeWord_toNat]; omega
  rw [fieldNeg, fieldReduce_mod _ (by rw [hs]; omega), hs]

/-- The Mersenne reduction of a product of canonical values (R125). -/
theorem foldProduct_toNat (n : Nat) (h : n ≤ (Config.P - 1) * (Config.P - 1)) : (foldProduct n).toNat = n % Config.P := by
  have hp := P_eq
  have hs : (BitVec.ofNat 128 (n % 2 ^ 127 + n / 2 ^ 127)).toNat = n % 2 ^ 127 + n / 2 ^ 127 := by
    rw [BitVec.toNat_ofNat]; rw [hp] at h; omega
  rw [foldProduct, fieldReduce_mod _ (by rw [hs]; rw [hp] at h ⊢; omega), hs]
  rw [hp]
  omega

theorem mul_le_of_canonical (a b : FieldWord) (ha : a.toNat < Config.P) (hb : b.toNat < Config.P) :
    a.toNat * b.toNat ≤ (Config.P - 1) * (Config.P - 1) :=
  Nat.mul_le_mul (by omega) (by omega)

theorem fieldMul_toNat (a b : FieldWord) (ha : a.toNat < Config.P) (hb : b.toNat < Config.P) :
    (fieldMul a b).toNat = a.toNat * b.toNat % Config.P :=
  foldProduct_toNat _ (mul_le_of_canonical a b ha hb)

theorem fieldSqr_toNat (a : FieldWord) (ha : a.toNat < Config.P) :
    (fieldSqr a).toNat = a.toNat * a.toNat % Config.P :=
  foldProduct_toNat _ (mul_le_of_canonical a a ha ha)

theorem getLsbD_zero_toNat {n : Nat} (a : BitVec n) : (a.getLsbD 0).toNat = a.toNat % 2 := by
  rw [BitVec.getLsbD, Nat.testBit_zero]
  rcases Nat.mod_two_eq_zero_or_one a.toNat with h | h <;> simp [h]

theorem fieldHalve_toNat (a : FieldWord) (ha : a.toNat < Config.P) :
    (fieldHalve a).toNat = if a.toNat % 2 = 0 then a.toNat / 2 else (a.toNat + Config.P) / 2 := by
  have hp := P_eq
  have hb := getLsbD_zero_toNat a
  cases h : a.getLsbD 0
  · rw [h] at hb
    have h0 : a.toNat % 2 = 0 := by simpa using hb.symm
    have hm : (0#128 - BitVec.ofNat 128 false.toNat) = 0#128 := by decide
    simp only [fieldHalve, h, hm, BitVec.and_zero, BitVec.add_zero, BitVec.toNat_ushiftRight, Nat.shiftRight_eq_div_pow]
    simp [h0]
  · rw [h] at hb
    have h1 : a.toNat % 2 = 1 := by simpa using hb.symm
    have hm : (0#128 - BitVec.ofNat 128 true.toNat) = BitVec.allOnes 128 := by decide
    have hs : (a + primeWord).toNat = a.toNat + Config.P := by rw [BitVec.toNat_add, primeWord_toNat]; omega
    simp only [fieldHalve, h, hm, BitVec.and_allOnes, BitVec.toNat_ushiftRight, hs, Nat.shiftRight_eq_div_pow]
    simp [h1]

/-- The value of `powOnes` (R128). -/
theorem powOnes_eq (a m k : Nat) : powOnes a m k = a ^ (2 ^ k - 1) % m := by
  induction k with
  | zero => simp [powOnes]
  | succ k ih =>
    have he : 2 ^ (k + 1) - 1 = (2 ^ k - 1) * 2 + 1 := by
      have : 0 < 2 ^ k := by positivity
      rw [pow_succ]; omega
    rw [powOnes, ih, he, pow_succ (n := (2 ^ k - 1) * 2), pow_mul]
    generalize a ^ (2 ^ k - 1) = x
    simp [Nat.mul_mod, Nat.pow_mod]

/-- 0 to a positive power, with the exponent kept abstract: a literal exponent of 127 bits is not to be evaluated. -/
theorem zero_pow_mod (k m : Nat) (hk : k ≠ 0) : 0 ^ k % m = 0 := by rw [Nat.zero_pow (Nat.pos_of_ne_zero hk), Nat.zero_mod]

theorem P_lt : Config.P < 2 ^ 128 := by decide

theorem P_pos : 0 < Config.P := by decide

theorem fieldPow125_toNat (a : FieldWord) : (fieldPow125 a).toNat = a.toNat ^ (2 ^ 125 - 1) % Config.P := by
  rw [fieldPow125, powOnes_eq, BitVec.toNat_ofNat]
  exact Nat.mod_eq_of_lt ((Nat.mod_lt _ P_pos).trans P_lt)

theorem fieldInvert_toNat (a : FieldWord) : (fieldInvert a).toNat = a.toNat ^ (2 ^ 127 - 3) % Config.P := by
  have he : 2 ^ 127 - 3 = (2 ^ 125 - 1) * 2 * 2 + 1 := by norm_num
  rw [fieldInvert, BitVec.toNat_ofNat, fieldPow125_toNat, Nat.mod_eq_of_lt ((Nat.mod_lt _ P_pos).trans P_lt), he,
    pow_succ (n := (2 ^ 125 - 1) * 2 * 2), pow_mul, pow_mul]
  generalize a.toNat ^ (2 ^ 125 - 1) = x
  simp [Nat.mul_mod, Nat.pow_mod]

theorem fieldSqrTimes_toNat (k : Nat) (x : FieldWord) (hx : x.toNat < Config.P) :
    (fieldSqrTimes k x).toNat = x.toNat ^ 2 ^ k % Config.P := by
  induction k generalizing x with
  | zero => simp [fieldSqrTimes, Nat.mod_eq_of_lt hx]
  | succ k ih =>
    have h := fieldSqr_toNat x hx
    have hl : (fieldSqr x).toNat < Config.P := by rw [h]; exact Nat.mod_lt _ P_pos
    rw [fieldSqrTimes, ih _ hl, h, ← Nat.pow_mod, ← pow_two, ← pow_mul, pow_succ']

end Sys2Proof.Machine
end

