-- ==== Sys2Proof/Laws/State.lean ====
section
/-! SUPPORT. The value of every field after every update of the state: one lemma per field per update, true by rfl. -/

namespace Sys2Proof.Machine

section
variable (s : State) (i : RegNum) (v : Word)

@[simp] theorem writeW_wreg : (s.writeW i v).wreg = s.wreg.set i v := rfl
@[simp] theorem writeW_freg : (s.writeW i v).freg = s.freg := rfl
@[simp] theorem writeW_sreg : (s.writeW i v).sreg = s.sreg := rfl
@[simp] theorem writeW_cf : (s.writeW i v).cf = s.cf := rfl
@[simp] theorem writeW_subseed : (s.writeW i v).subseed = s.subseed := rfl
@[simp] theorem writeW_pubkey : (s.writeW i v).pubkey = s.pubkey := rfl
@[simp] theorem writeW_digest : (s.writeW i v).digest = s.digest := rfl
@[simp] theorem writeW_sig : (s.writeW i v).sig = s.sig := rfl
@[simp] theorem writeW_err : (s.writeW i v).err = s.err := rfl
@[simp] theorem writeW_vok : (s.writeW i v).vok = s.vok := rfl
@[simp] theorem writeW_ecode : (s.writeW i v).ecode = s.ecode := rfl
@[simp] theorem writeW_ecmd : (s.writeW i v).ecmd = s.ecmd := rfl
@[simp] theorem writeW_port : (s.writeW i v).port = s.port := rfl
@[simp] theorem writeW_reply : (s.writeW i v).reply = s.reply := rfl
@[simp] theorem writeW_draws : (s.writeW i v).draws = s.draws := rfl

end

section
variable (s : State) (i : RegNum) (v : FieldWord)

@[simp] theorem writeF_wreg : (s.writeF i v).wreg = s.wreg := rfl
@[simp] theorem writeF_freg : (s.writeF i v).freg = s.freg.set i v := rfl
@[simp] theorem writeF_sreg : (s.writeF i v).sreg = s.sreg := rfl
@[simp] theorem writeF_cf : (s.writeF i v).cf = s.cf := rfl
@[simp] theorem writeF_subseed : (s.writeF i v).subseed = s.subseed := rfl
@[simp] theorem writeF_pubkey : (s.writeF i v).pubkey = s.pubkey := rfl
@[simp] theorem writeF_digest : (s.writeF i v).digest = s.digest := rfl
@[simp] theorem writeF_sig : (s.writeF i v).sig = s.sig := rfl
@[simp] theorem writeF_err : (s.writeF i v).err = s.err := rfl
@[simp] theorem writeF_vok : (s.writeF i v).vok = s.vok := rfl
@[simp] theorem writeF_ecode : (s.writeF i v).ecode = s.ecode := rfl
@[simp] theorem writeF_ecmd : (s.writeF i v).ecmd = s.ecmd := rfl
@[simp] theorem writeF_port : (s.writeF i v).port = s.port := rfl
@[simp] theorem writeF_reply : (s.writeF i v).reply = s.reply := rfl
@[simp] theorem writeF_draws : (s.writeF i v).draws = s.draws := rfl

end

section
variable (s : State) (i : RegNum) (v : Scalar)

@[simp] theorem writeS_wreg : (s.writeS i v).wreg = s.wreg := rfl
@[simp] theorem writeS_freg : (s.writeS i v).freg = s.freg := rfl
@[simp] theorem writeS_sreg : (s.writeS i v).sreg = s.sreg.set i v := rfl
@[simp] theorem writeS_cf : (s.writeS i v).cf = s.cf := rfl
@[simp] theorem writeS_subseed : (s.writeS i v).subseed = s.subseed := rfl
@[simp] theorem writeS_pubkey : (s.writeS i v).pubkey = s.pubkey := rfl
@[simp] theorem writeS_digest : (s.writeS i v).digest = s.digest := rfl
@[simp] theorem writeS_sig : (s.writeS i v).sig = s.sig := rfl
@[simp] theorem writeS_err : (s.writeS i v).err = s.err := rfl
@[simp] theorem writeS_vok : (s.writeS i v).vok = s.vok := rfl
@[simp] theorem writeS_ecode : (s.writeS i v).ecode = s.ecode := rfl
@[simp] theorem writeS_ecmd : (s.writeS i v).ecmd = s.ecmd := rfl
@[simp] theorem writeS_port : (s.writeS i v).port = s.port := rfl
@[simp] theorem writeS_reply : (s.writeS i v).reply = s.reply := rfl
@[simp] theorem writeS_draws : (s.writeS i v).draws = s.draws := rfl

end

section
variable (s : State) (b : Bool)

@[simp] theorem writeCF_wreg : (s.writeCF b).wreg = s.wreg := rfl
@[simp] theorem writeCF_freg : (s.writeCF b).freg = s.freg := rfl
@[simp] theorem writeCF_sreg : (s.writeCF b).sreg = s.sreg := rfl
@[simp] theorem writeCF_cf : (s.writeCF b).cf = b := rfl
@[simp] theorem writeCF_subseed : (s.writeCF b).subseed = s.subseed := rfl
@[simp] theorem writeCF_pubkey : (s.writeCF b).pubkey = s.pubkey := rfl
@[simp] theorem writeCF_digest : (s.writeCF b).digest = s.digest := rfl
@[simp] theorem writeCF_sig : (s.writeCF b).sig = s.sig := rfl
@[simp] theorem writeCF_err : (s.writeCF b).err = s.err := rfl
@[simp] theorem writeCF_vok : (s.writeCF b).vok = s.vok := rfl
@[simp] theorem writeCF_ecode : (s.writeCF b).ecode = s.ecode := rfl
@[simp] theorem writeCF_ecmd : (s.writeCF b).ecmd = s.ecmd := rfl
@[simp] theorem writeCF_port : (s.writeCF b).port = s.port := rfl
@[simp] theorem writeCF_reply : (s.writeCF b).reply = s.reply := rfl
@[simp] theorem writeCF_draws : (s.writeCF b).draws = s.draws := rfl

end

section
variable (s : State) (b : Vector Byte 64)

@[simp] theorem writeSig_wreg : (s.writeSig b).wreg = s.wreg := rfl
@[simp] theorem writeSig_freg : (s.writeSig b).freg = s.freg := rfl
@[simp] theorem writeSig_sreg : (s.writeSig b).sreg = s.sreg := rfl
@[simp] theorem writeSig_cf : (s.writeSig b).cf = s.cf := rfl
@[simp] theorem writeSig_subseed : (s.writeSig b).subseed = s.subseed := rfl
@[simp] theorem writeSig_pubkey : (s.writeSig b).pubkey = s.pubkey := rfl
@[simp] theorem writeSig_digest : (s.writeSig b).digest = s.digest := rfl
@[simp] theorem writeSig_sig : (s.writeSig b).sig = b := rfl
@[simp] theorem writeSig_err : (s.writeSig b).err = s.err := rfl
@[simp] theorem writeSig_vok : (s.writeSig b).vok = s.vok := rfl
@[simp] theorem writeSig_ecode : (s.writeSig b).ecode = s.ecode := rfl
@[simp] theorem writeSig_ecmd : (s.writeSig b).ecmd = s.ecmd := rfl
@[simp] theorem writeSig_port : (s.writeSig b).port = s.port := rfl
@[simp] theorem writeSig_reply : (s.writeSig b).reply = s.reply := rfl
@[simp] theorem writeSig_draws : (s.writeSig b).draws = s.draws := rfl

end

section
variable (s : State) (b : Bool)

@[simp] theorem writeVOK_wreg : (s.writeVOK b).wreg = s.wreg := rfl
@[simp] theorem writeVOK_freg : (s.writeVOK b).freg = s.freg := rfl
@[simp] theorem writeVOK_sreg : (s.writeVOK b).sreg = s.sreg := rfl
@[simp] theorem writeVOK_cf : (s.writeVOK b).cf = s.cf := rfl
@[simp] theorem writeVOK_subseed : (s.writeVOK b).subseed = s.subseed := rfl
@[simp] theorem writeVOK_pubkey : (s.writeVOK b).pubkey = s.pubkey := rfl
@[simp] theorem writeVOK_digest : (s.writeVOK b).digest = s.digest := rfl
@[simp] theorem writeVOK_sig : (s.writeVOK b).sig = s.sig := rfl
@[simp] theorem writeVOK_err : (s.writeVOK b).err = s.err := rfl
@[simp] theorem writeVOK_vok : (s.writeVOK b).vok = b := rfl
@[simp] theorem writeVOK_ecode : (s.writeVOK b).ecode = s.ecode := rfl
@[simp] theorem writeVOK_ecmd : (s.writeVOK b).ecmd = s.ecmd := rfl
@[simp] theorem writeVOK_port : (s.writeVOK b).port = s.port := rfl
@[simp] theorem writeVOK_reply : (s.writeVOK b).reply = s.reply := rfl
@[simp] theorem writeVOK_draws : (s.writeVOK b).draws = s.draws := rfl

end

section
variable (s : State)

@[simp] theorem drawn_wreg : (s.drawn).wreg = s.wreg := rfl
@[simp] theorem drawn_freg : (s.drawn).freg = s.freg := rfl
@[simp] theorem drawn_sreg : (s.drawn).sreg = s.sreg := rfl
@[simp] theorem drawn_cf : (s.drawn).cf = s.cf := rfl
@[simp] theorem drawn_subseed : (s.drawn).subseed = s.subseed := rfl
@[simp] theorem drawn_pubkey : (s.drawn).pubkey = s.pubkey := rfl
@[simp] theorem drawn_digest : (s.drawn).digest = s.digest := rfl
@[simp] theorem drawn_sig : (s.drawn).sig = s.sig := rfl
@[simp] theorem drawn_err : (s.drawn).err = s.err := rfl
@[simp] theorem drawn_vok : (s.drawn).vok = s.vok := rfl
@[simp] theorem drawn_ecode : (s.drawn).ecode = s.ecode := rfl
@[simp] theorem drawn_ecmd : (s.drawn).ecmd = s.ecmd := rfl
@[simp] theorem drawn_port : (s.drawn).port = s.port := rfl
@[simp] theorem drawn_reply : (s.drawn).reply = s.reply := rfl
@[simp] theorem drawn_draws : (s.drawn).draws = s.draws + 1 := rfl

end

section
variable (s : State)

@[simp] theorem clearRefused_wreg : (s.clearRefused).wreg = s.wreg := rfl
@[simp] theorem clearRefused_freg : (s.clearRefused).freg = s.freg := rfl
@[simp] theorem clearRefused_sreg : (s.clearRefused).sreg = s.sreg := rfl
@[simp] theorem clearRefused_cf : (s.clearRefused).cf = s.cf := rfl
@[simp] theorem clearRefused_subseed : (s.clearRefused).subseed = s.subseed := rfl
@[simp] theorem clearRefused_pubkey : (s.clearRefused).pubkey = s.pubkey := rfl
@[simp] theorem clearRefused_digest : (s.clearRefused).digest = s.digest := rfl
@[simp] theorem clearRefused_sig : (s.clearRefused).sig = s.sig := rfl
@[simp] theorem clearRefused_err : (s.clearRefused).err = false := rfl
@[simp] theorem clearRefused_vok : (s.clearRefused).vok = s.vok := rfl
@[simp] theorem clearRefused_ecode : (s.clearRefused).ecode = 0#8 := rfl
@[simp] theorem clearRefused_ecmd : (s.clearRefused).ecmd = 0#64 := rfl
@[simp] theorem clearRefused_port : (s.clearRefused).port = s.port := rfl
@[simp] theorem clearRefused_reply : (s.clearRefused).reply = s.reply := rfl
@[simp] theorem clearRefused_draws : (s.clearRefused).draws = s.draws := rfl

end

section
variable (s : State) (r : List HostEvent)

@[simp] theorem takeMove_wreg : (s.takeMove r).wreg = s.wreg := rfl
@[simp] theorem takeMove_freg : (s.takeMove r).freg = s.freg := rfl
@[simp] theorem takeMove_sreg : (s.takeMove r).sreg = s.sreg := rfl
@[simp] theorem takeMove_cf : (s.takeMove r).cf = s.cf := rfl
@[simp] theorem takeMove_subseed : (s.takeMove r).subseed = s.subseed := rfl
@[simp] theorem takeMove_pubkey : (s.takeMove r).pubkey = s.pubkey := rfl
@[simp] theorem takeMove_digest : (s.takeMove r).digest = s.digest := rfl
@[simp] theorem takeMove_sig : (s.takeMove r).sig = s.sig := rfl
@[simp] theorem takeMove_err : (s.takeMove r).err = s.err := rfl
@[simp] theorem takeMove_vok : (s.takeMove r).vok = s.vok := rfl
@[simp] theorem takeMove_ecode : (s.takeMove r).ecode = s.ecode := rfl
@[simp] theorem takeMove_ecmd : (s.takeMove r).ecmd = s.ecmd := rfl
@[simp] theorem takeMove_port : (s.takeMove r).port = r := rfl
@[simp] theorem takeMove_reply : (s.takeMove r).reply = none := rfl
@[simp] theorem takeMove_draws : (s.takeMove r).draws = s.draws := rfl

end

end Sys2Proof.Machine
end

