-- ==== Sys2Proof/Laws/Ops.lean ====
section
/-! SUPPORT. What each shared operation does, said once. -/

namespace Sys2Proof.Machine

theorem readW_writeW (s : State) (i j : RegNum) (v : Word) : (s.writeW i v).readW j = if i = j then v else s.readW j := by
  simp only [State.readW, State.writeW, Fin.getElem_fin, Vector.getElem_set, Fin.ext_iff]

theorem readF_writeF (s : State) (i j : RegNum) (v : FieldWord) :
    (s.writeF i v).readF j = if i = j then v else s.readF j := by
  simp only [State.readF, State.writeF, Fin.getElem_fin, Vector.getElem_set, Fin.ext_iff]

theorem readS_writeS (s : State) (i j : RegNum) (v : Scalar) :
    (s.writeS i v).readS j = if i = j then v else s.readS j := by
  simp only [State.readS, State.writeS, Fin.getElem_fin, Vector.getElem_set, Fin.ext_iff]

/-- A field command with canonical operands writes the value of its rule and draws nothing (R120). -/
theorem writeFieldResult_canonical (s : State) (rd : RegNum) (v : FieldWord) :
    s.writeFieldResult rd true v = s.writeF rd v := rfl

/-- A field command with another operand writes a free value (R120). -/
theorem writeFieldResult_free (s : State) (rd : RegNum) (v : FieldWord) :
    s.writeFieldResult rd false v = s.drawn.writeF rd (Config.freeField s.draws) := rfl

/-- All a field command can do: one write of its destination, and at most one draw (R78, R120). -/
theorem writeFieldResult_spec (s : State) (rd : RegNum) (c : Bool) (v : FieldWord) :
    ∃ x n, s.writeFieldResult rd c v = { s with freg := s.freg.set rd x, draws := n } := by
  cases c
  · exact ⟨Config.freeField s.draws, s.draws + 1, rfl⟩
  · exact ⟨v, s.draws, rfl⟩

/-- All the exception can do (R211). -/
theorem raiseRefused_spec (s : State) (c : RefuseCode) (v : Word) :
    s.raiseRefused c v = { s with err := true, ecode := if s.err then s.ecode else c.bits,
                                  ecmd := if s.err then s.ecmd else v } := by
  obtain ⟨_, _, _, _, _, _, _, _, err, _, _, _, _, _, _⟩ := s
  cases err <;> rfl

/-- The selector of the carry-in: 3 selects nothing, every other value a bit (R74). -/
theorem carryIn_eq_none_iff (cin : BitVec 2) (cf : Bool) : carryIn cin cf = none ↔ legalCin cin = false := by
  revert cin; revert cf; decide

theorem legalCin_cases (cin : BitVec 2) (cf : Bool) (h : legalCin cin = true) :
    (cin = 0#2 ∧ carryIn cin cf = some false) ∨ (cin = 1#2 ∧ carryIn cin cf = some true) ∨
      (cin = 2#2 ∧ carryIn cin cf = some cf) := by
  revert cin; revert cf; decide

/-- The full adder as numbers (R103). -/
theorem addWithCarry_spec (ci : Bool) (a b : Word) :
    addWithCarry ci a b = (decide (2 ^ 64 ≤ a.toNat + b.toNat + ci.toNat), BitVec.ofNat 64 (a.toNat + b.toNat + ci.toNat)) := by
  have := a.isLt
  have := b.isLt
  simp only [addWithCarry, Prod.mk.injEq, and_true]
  rw [Bool.eq_iff_iff]
  simp only [bne_iff_ne, decide_eq_true_eq]
  omega

/-- The full subtractor as numbers (R104). -/
theorem subWithBorrow_spec (bi : Bool) (a b : Word) :
    subWithBorrow bi a b = (decide (a.toNat < b.toNat + bi.toNat),
      BitVec.ofNat 64 (a.toNat + 2 ^ 65 - b.toNat - bi.toNat)) := by
  have := a.isLt
  have := b.isLt
  have := Bool.toNat_le bi
  simp only [subWithBorrow, Prod.mk.injEq]
  constructor
  · rw [Bool.eq_iff_iff]; simp only [decide_eq_true_eq]; omega
  · apply BitVec.eq_of_toNat_eq
    simp only [BitVec.toNat_ofInt, BitVec.toNat_ofNat]
    omega

/-- `mp_add` as numbers (R151). -/
theorem mpAdd_spec {k : Nat} (a b : BitVec k) :
    mpAdd a b = (BitVec.ofNat k (a.toNat + b.toNat), decide (2 ^ k ≤ a.toNat + b.toNat)) := by
  have hp : 0 < 2 ^ k := by positivity
  simp only [mpAdd, Prod.mk.injEq, true_and]
  rw [Bool.eq_iff_iff]
  simp only [bne_iff_ne, decide_eq_true_eq, ne_eq, Nat.div_eq_zero_iff, not_or, not_lt]
  omega

/-- `mp_sub` as numbers (R152). -/
theorem mpSub_spec {k : Nat} (a b : BitVec k) : mpSub a b = (a - b, decide (a.toNat < b.toNat)) := by
  simp only [mpSub, Prod.mk.injEq]
  constructor
  · apply BitVec.eq_of_toInt_eq
    rw [BitVec.toInt_ofInt, BitVec.toInt_sub, BitVec.toInt_eq_toNat_bmod, BitVec.toInt_eq_toNat_bmod]
    simp [Int.bmod_sub_bmod, Int.sub_bmod_bmod]
  · rw [Bool.eq_iff_iff]; simp only [decide_eq_true_eq]; omega

@[simp] theorem maskOf_true (k : Nat) : maskOf true k = BitVec.allOnes k := by
  apply BitVec.eq_of_toNat_eq
  simp only [maskOf, Bool.toNat_true]
  rw [BitVec.zero_sub, BitVec.neg_one_eq_allOnes]

@[simp] theorem maskOf_false (k : Nat) : maskOf false k = 0#k := by
  simp [maskOf]

/-- `STATUS` as a number: its three bits and its code, reserved bits zero (R28). -/
theorem status_eq (s : State) : s.status =
    BitVec.ofNat 64 (s.err.toNat + 2 * s.vok.toNat + 4 * s.cf.toNat + 2 ^ 8 * s.ecode.toNat) := by
  have h : ∀ (e v b : Bool) (k : Byte), (BitVec.ofNat 64 e.toNat ||| BitVec.ofNat 64 v.toNat <<< 1 |||
      BitVec.ofNat 64 b.toNat <<< 2 ||| k.setWidth 64 <<< 8) =
      BitVec.ofNat 64 (e.toNat + 2 * v.toNat + 4 * b.toNat + 2 ^ 8 * k.toNat) := by decide +kernel
  exact h s.err s.vok s.cf s.ecode

end Sys2Proof.Machine
end

