-- ==== Sys2Proof/Laws/PerInstr.lean ====
section
/-! SUPPORT. A statement for every command, one lemma per constructor: its word selects a row of the opcode map as
spec/30_encoding.md R72 says, `c & m = k << 24`. -/

namespace Sys2Proof.Laws.SelectsARow

set_option maxRecDepth 8000
set_option Elab.async false

/-- The word of the command equals, under the mask of some row's format, that row's opcode shifted left by 24 (R72). -/
def Statement (i : Instr) : Prop := ∃ r ∈ opcodeTable, encode i &&& r.format.mask = opWord r.op

/-- The statement with its row found by evaluation. -/
theorem of_any (i : Instr) (h : (opcodeTable.any fun r => encode i &&& r.format.mask == opWord r.op) = true) :
    Statement i := by
  obtain ⟨r, hr, hm⟩ := List.any_eq_true.mp h
  exact ⟨r, hr, beq_iff_eq.mp hm⟩

theorem ctnz (rd ra : RegNum) : Statement (.ctnz rd ra) := of_any _ (by revert rd ra; decide +kernel)

theorem ctz (rd ra : RegNum) : Statement (.ctz rd ra) := of_any _ (by revert rd ra; decide +kernel)

theorem ctlt (rd ra rb : RegNum) : Statement (.ctlt rd ra rb) := of_any _ (by revert rd ra rb; decide +kernel)

theorem adc (rd ra rb : RegNum) (cin : BitVec 2) : Statement (.adc rd ra rb cin) := of_any _ (by revert rd ra rb cin; decide +kernel)

theorem sbb (rd ra rb : RegNum) (cin : BitVec 2) : Statement (.sbb rd ra rb cin) := of_any _ (by revert rd ra rb cin; decide +kernel)

theorem fred (rd ra : RegNum) : Statement (.fred rd ra) := of_any _ (by revert rd ra; decide +kernel)

theorem fadd (rd ra rb : RegNum) : Statement (.fadd rd ra rb) := of_any _ (by revert rd ra rb; decide +kernel)

theorem fsub (rd ra rb : RegNum) : Statement (.fsub rd ra rb) := of_any _ (by revert rd ra rb; decide +kernel)

theorem fneg (rd ra : RegNum) : Statement (.fneg rd ra) := of_any _ (by revert rd ra; decide +kernel)

theorem fmul (rd ra rb : RegNum) : Statement (.fmul rd ra rb) := of_any _ (by revert rd ra rb; decide +kernel)

theorem fsqr (rd ra : RegNum) : Statement (.fsqr rd ra) := of_any _ (by revert rd ra; decide +kernel)

theorem fhalf (rd ra : RegNum) : Statement (.fhalf rd ra) := of_any _ (by revert rd ra; decide +kernel)

theorem fpow125 (rd ra : RegNum) : Statement (.fpow125 rd ra) := of_any _ (by revert rd ra; decide +kernel)

theorem finv (rd ra : RegNum) : Statement (.finv rd ra) := of_any _ (by revert rd ra; decide +kernel)

theorem mpadd (rd ra rb : RegNum) : Statement (.mpadd rd ra rb) := of_any _ (by revert rd ra rb; decide +kernel)

theorem mpsub (rd ra rb : RegNum) : Statement (.mpsub rd ra rb) := of_any _ (by revert rd ra rb; decide +kernel)

theorem saddm (rd ra rb : RegNum) : Statement (.saddm rd ra rb) := of_any _ (by revert rd ra rb; decide +kernel)

theorem ssubm (rd ra rb : RegNum) : Statement (.ssubm rd ra rb) := of_any _ (by revert rd ra rb; decide +kernel)

theorem mmul (rd ra rb : RegNum) : Statement (.mmul rd ra rb) := of_any _ (by revert rd ra rb; decide +kernel)

theorem tomont (rd ra : RegNum) : Statement (.tomont rd ra) := of_any _ (by revert rd ra; decide +kernel)

theorem frommont (rd ra : RegNum) : Statement (.frommont rd ra) := of_any _ (by revert rd ra; decide +kernel)

theorem smodr (rd ra : RegNum) : Statement (.smodr rd ra) := of_any _ (by revert rd ra; decide +kernel)

theorem mkodd (rd ra : RegNum) : Statement (.mkodd rd ra) := of_any _ (by revert rd ra; decide +kernel)

theorem sign : Statement (.sign) := of_any _ (by decide +kernel)

theorem verify : Statement (.verify) := of_any _ (by decide +kernel)

end Sys2Proof.Laws.SelectsARow
end

