-- ==== Sys2Proof/Laws/Scalar.lean ====
section
/-! SUPPORT. The values of the scalar functions (spec/42_scalar.md R155 to R162), for any curve-order constants. -/

namespace Sys2Proof.Machine

set_option exponentiation.threshold 600 in
theorem two_pow_512 : 2 ^ 512 = 2 ^ 256 * 2 ^ 256 := pow_add 2 256 256

set_option exponentiation.threshold 600 in
theorem multiplyWide_toNat (a b : Scalar) : (multiplyWide a b).toNat = a.toNat * b.toNat := by
  have h : a.toNat * b.toNat < 2 ^ 256 * 2 ^ 256 := Nat.mul_lt_mul'' a.isLt b.isLt
  rw [multiplyWide, BitVec.toNat_ofNat, two_pow_512, Nat.mod_eq_of_lt h]

theorem montgomeryQuotient_toNat (c : CurveParams) (a b : Scalar) :
    (montgomeryQuotient c a b).toNat = a.toNat * b.toNat * c.ninv.toNat % 2 ^ 256 := by
  rw [montgomeryQuotient, BitVec.toNat_ofNat, multiplyWide_toNat]

/-- `prod + temp` of R157, exact. -/
def montgomeryTotal (c : CurveParams) (a b : Scalar) : Nat :=
  a.toNat * b.toNat + a.toNat * b.toNat * c.ninv.toNat % 2 ^ 256 * c.order.toNat

theorem montgomeryTotal_lt (c : CurveParams) (a b : Scalar) :
    montgomeryTotal c a b < 2 ^ 256 * (2 ^ 256 + c.order.toNat) := by
  have h1 : a.toNat * b.toNat < 2 ^ 256 * 2 ^ 256 := Nat.mul_lt_mul'' a.isLt b.isLt
  have h2 : a.toNat * b.toNat * c.ninv.toNat % 2 ^ 256 * c.order.toNat ≤ 2 ^ 256 * c.order.toNat :=
    Nat.mul_le_mul_right _ (Nat.mod_lt _ (by positivity)).le
  rw [montgomeryTotal, Nat.mul_add]
  omega

set_option exponentiation.threshold 600 in
/-- The carry and the upper half of the 8-word sum are the exact total shifted right (R157). -/
theorem montgomeryV_eq (c : CurveParams) (a b : Scalar) :
    montgomeryV c a b = montgomeryTotal c a b / 2 ^ 256 := by
  have ho := c.order.isLt
  have ht := montgomeryTotal_lt c a b
  have hs : (multiplyWide a b).toNat + (multiplyWide (montgomeryQuotient c a b) c.order).toNat =
      montgomeryTotal c a b := by
    rw [multiplyWide_toNat, multiplyWide_toNat, montgomeryQuotient_toNat, montgomeryTotal]
  rw [montgomeryV, montgomerySum, mpAdd_spec, hs, two_pow_512]
  have hd := Nat.div_lt_of_lt_mul ht
  rw [BitVec.toNat_ofNat, two_pow_512, Nat.mod_mul_right_div_self]
  generalize montgomeryTotal c a b = t at ht hd
  have hk : 2 ^ 256 * 2 ^ 256 ≤ t ↔ 2 ^ 256 ≤ t / 2 ^ 256 := (Nat.le_div_iff_mul_le (by positivity)).symm
  by_cases h : 2 ^ 256 * 2 ^ 256 ≤ t
  · rw [decide_eq_true h]; simp only [Bool.toNat_true]; have h1 := hk.mp h; clear hk h ht hs; omega
  · rw [decide_eq_false h]; simp only [Bool.toNat_false]; have h1 := mt hk.mpr h; clear hk h ht hs; omega

theorem montgomeryV_lt (c : CurveParams) (a b : Scalar) : montgomeryV c a b < 2 ^ 256 + c.order.toNat := by
  rw [montgomeryV_eq]
  exact Nat.div_lt_of_lt_mul (montgomeryTotal_lt c a b)

/-- The low half of the sum is zero (R157). -/
theorem montgomeryTotal_dvd (c : CurveParams) (hc : c.Relations) (a b : Scalar) : 2 ^ 256 ∣ montgomeryTotal c a b := by
  have hn := hc.ninv_eq
  have h1 : (c.ninv.toNat * c.order.toNat + 1) ≡ 0 [MOD 2 ^ 256] := by
    rw [Nat.ModEq]; omega
  have h2 : montgomeryTotal c a b ≡ a.toNat * b.toNat * (c.ninv.toNat * c.order.toNat + 1) [MOD 2 ^ 256] := by
    have h3 : a.toNat * b.toNat * c.ninv.toNat % 2 ^ 256 * c.order.toNat ≡
        a.toNat * b.toNat * c.ninv.toNat * c.order.toNat [MOD 2 ^ 256] :=
      (Nat.mod_modEq _ _).mul_right _
    have h4 := (Nat.ModEq.refl (n := 2 ^ 256) (a.toNat * b.toNat)).add h3
    rw [montgomeryTotal]
    have h5 : a.toNat * b.toNat + a.toNat * b.toNat * c.ninv.toNat * c.order.toNat =
        a.toNat * b.toNat * (c.ninv.toNat * c.order.toNat + 1) := by ring
    rwa [h5] at h4
  exact (Nat.modEq_zero_iff_dvd.mp (h2.trans (by simpa using h1.mul_left (a.toNat * b.toNat))))

theorem montgomeryV_mul (c : CurveParams) (hc : c.Relations) (a b : Scalar) :
    montgomeryV c a b * 2 ^ 256 = montgomeryTotal c a b := by
  rw [montgomeryV_eq]
  exact Nat.div_mul_cancel (montgomeryTotal_dvd c hc a b)

/-- The MMUL-function as a number (R157). -/
theorem montgomeryMultiply_toNat (c : CurveParams) (a b : Scalar) :
    (montgomeryMultiply c a b).toNat =
      if c.order.toNat ≤ montgomeryV c a b then montgomeryV c a b - c.order.toNat else montgomeryV c a b := by
  have h := montgomeryV_lt c a b
  have ho := c.order.isLt
  rw [montgomeryMultiply, BitVec.toNat_ofNat]
  apply Nat.mod_eq_of_lt
  split <;> omega

/-- `S[d] · R ≡ ma · mb` modulo the order, for all operands (R157). -/
theorem montgomeryMultiply_modEq (c : CurveParams) (hc : c.Relations) (a b : Scalar) :
    (montgomeryMultiply c a b).toNat * 2 ^ 256 ≡ a.toNat * b.toNat [MOD c.order.toNat] := by
  have h1 : montgomeryV c a b * 2 ^ 256 ≡ a.toNat * b.toNat [MOD c.order.toNat] := by
    rw [montgomeryV_mul c hc, montgomeryTotal]
    simp [Nat.ModEq]
  rw [montgomeryMultiply_toNat]
  split
  · rename_i h
    refine Nat.ModEq.trans ?_ h1
    apply Nat.ModEq.mul_right
    conv_rhs => rw [← Nat.sub_add_cancel h]
    simp [Nat.ModEq]
  · exact h1

/-- The result is canonical when the product is below 2^256 · ORDER (R157). -/
theorem montgomeryMultiply_lt (c : CurveParams) (a b : Scalar)
    (h : a.toNat * b.toNat < 2 ^ 256 * c.order.toNat) : (montgomeryMultiply c a b).toNat < c.order.toNat := by
  have h2 : a.toNat * b.toNat * c.ninv.toNat % 2 ^ 256 * c.order.toNat ≤ 2 ^ 256 * c.order.toNat :=
    Nat.mul_le_mul_right _ (Nat.mod_lt _ (by positivity)).le
  have h3 : montgomeryV c a b < 2 * c.order.toNat := by
    rw [montgomeryV_eq]
    apply Nat.div_lt_of_lt_mul
    rw [montgomeryTotal]
    omega
  rw [montgomeryMultiply_toNat]
  split <;> omega

theorem order_pos (c : CurveParams) (hc : c.Relations) : 0 < c.order.toNat := by
  have := hc.one_lt
  omega

theorem radix_coprime (c : CurveParams) (hc : c.Relations) : Nat.Coprime c.order.toNat (2 ^ 256) := by
  apply Nat.Coprime.pow_right
  rw [Nat.coprime_two_right, Nat.odd_iff]
  exact hc.odd

/-- The radix can be cancelled modulo the order. -/
theorem radix_cancel (c : CurveParams) (hc : c.Relations) {x y : Nat}
    (h : x * 2 ^ 256 ≡ y * 2 ^ 256 [MOD c.order.toNat]) : x ≡ y [MOD c.order.toNat] :=
  Nat.ModEq.cancel_right_of_coprime (radix_coprime c hc) h

theorem mul_lt_of_right (c : CurveParams) (a b : Scalar) (hb : b.toNat < c.order.toNat) :
    a.toNat * b.toNat < 2 ^ 256 * c.order.toNat := Nat.mul_lt_mul'' a.isLt hb

theorem rsq_lt (c : CurveParams) (hc : c.Relations) : c.rsq.toNat < c.order.toNat := by
  rw [hc.rsq_eq]; exact Nat.mod_lt _ (order_pos c hc)

/-- `toMontgomery(a) = a · R mod ORDER` for every u256 (R158). -/
theorem toMontgomery_toNat (c : CurveParams) (hc : c.Relations) (a : Scalar) :
    (toMontgomery c a).toNat = a.toNat * 2 ^ 256 % c.order.toNat := by
  have h1 := montgomeryMultiply_modEq c hc a c.rsq
  have h2 : a.toNat * c.rsq.toNat ≡ a.toNat * 2 ^ 256 * 2 ^ 256 [MOD c.order.toNat] := by
    rw [hc.rsq_eq, mul_assoc, ← pow_two]
    exact (Nat.mod_modEq _ _).mul_left _
  have h3 := radix_cancel c hc (h1.trans h2)
  have h4 := montgomeryMultiply_lt c a c.rsq (mul_lt_of_right c a c.rsq (rsq_lt c hc))
  rw [toMontgomery, ← h3, Nat.mod_eq_of_lt h4]

theorem fromMontgomery_lt (c : CurveParams) (hc : c.Relations) (a : Scalar) :
    (fromMontgomery c a).toNat < c.order.toNat :=
  montgomeryMultiply_lt c a 1#256 (mul_lt_of_right c a 1#256 hc.one_lt)

/-- `fromMontgomery(a) · R ≡ a` (R159). -/
theorem fromMontgomery_modEq (c : CurveParams) (hc : c.Relations) (a : Scalar) :
    (fromMontgomery c a).toNat * 2 ^ 256 ≡ a.toNat [MOD c.order.toNat] := by
  have h := montgomeryMultiply_modEq c hc a 1#256
  simpa [fromMontgomery] using h

/-- `modulo_order(a) = a mod ORDER` for every u256 (R160). -/
theorem moduloOrder_toNat (c : CurveParams) (hc : c.Relations) (a : Scalar) :
    (moduloOrder c a).toNat = a.toNat % c.order.toNat := by
  have h1 := fromMontgomery_modEq c hc (toMontgomery c a)
  rw [toMontgomery_toNat c hc] at h1
  have h2 := radix_cancel c hc (h1.trans (Nat.mod_modEq _ _))
  have h3 := fromMontgomery_lt c hc (toMontgomery c a)
  rw [moduloOrder, ← h2, Nat.mod_eq_of_lt h3]

/-- `subtractModOrder` on every pair of u256 (R155). -/
theorem subtractModOrder_toNat (c : CurveParams) (a b : Scalar) :
    (subtractModOrder c a b).toNat =
      if b.toNat ≤ a.toNat then a.toNat - b.toNat
      else (a.toNat + 2 ^ 256 - b.toNat + c.order.toNat) % 2 ^ 256 := by
  have ha := a.isLt
  have hb := b.isLt
  rw [subtractModOrder, mpSub_spec]
  by_cases h : a.toNat < b.toNat
  · rw [decide_eq_true h, maskOf_true, BitVec.and_allOnes, mpAdd_spec, if_neg (by omega)]
    simp only [BitVec.toNat_ofNat, BitVec.toNat_sub]
    omega
  · rw [decide_eq_false h, maskOf_false, BitVec.and_zero, mpAdd_spec, if_pos (by omega)]
    simp only [BitVec.toNat_ofNat, BitVec.toNat_sub]
    omega

/-- `addModOrder` on every pair of u256 (R156). -/
theorem addModOrder_toNat (c : CurveParams) (a b : Scalar) :
    (addModOrder c a b).toNat =
      if c.order.toNat ≤ (a.toNat + b.toNat) % 2 ^ 256 then (a.toNat + b.toNat) % 2 ^ 256 - c.order.toNat
      else (a.toNat + b.toNat) % 2 ^ 256 := by
  have ho := c.order.isLt
  rw [addModOrder, subtractModOrder_toNat, mpAdd_spec]
  simp only [BitVec.toNat_ofNat]
  have h := Nat.mod_lt (a.toNat + b.toNat) (show 0 < 2 ^ 256 by positivity)
  split
  · rfl
  · omega

theorem addModOrder_canonical (c : CurveParams) (hc : c.Relations) (a b : Scalar) (ha : a.toNat < c.order.toNat)
    (hb : b.toNat < c.order.toNat) : (addModOrder c a b).toNat = (a.toNat + b.toNat) % c.order.toNat := by
  have hle := hc.le
  have hs : (a.toNat + b.toNat) % 2 ^ 256 = a.toNat + b.toNat := Nat.mod_eq_of_lt (by omega)
  rw [addModOrder_toNat, hs]
  split
  · rename_i h
    rw [Nat.mod_eq_sub_mod h, Nat.mod_eq_of_lt (by omega)]
  · rw [Nat.mod_eq_of_lt (by omega)]

theorem subtractModOrder_canonical (c : CurveParams) (hc : c.Relations) (a b : Scalar) (ha : a.toNat < c.order.toNat)
    (hb : b.toNat < c.order.toNat) :
    (subtractModOrder c a b).toNat = (a.toNat + c.order.toNat - b.toNat) % c.order.toNat := by
  have hle := hc.le
  rw [subtractModOrder_toNat]
  split
  · rw [Nat.mod_eq_sub_mod (by omega), Nat.mod_eq_of_lt (by omega)]
    omega
  · rw [Nat.mod_eq_of_lt (b := c.order.toNat) (by omega)]
    omega

/-- `makeOdd` on every u256 (R161). -/
theorem makeOdd_toNat (c : CurveParams) (k : Scalar) :
    (makeOdd c k).toNat = if k.toNat % 2 = 0 then (k.toNat + c.order.toNat) % 2 ^ 256 else k.toNat := by
  have hk := k.isLt
  have h0 : k.getLsbD 0 = decide (k.toNat % 2 = 1) := by rw [BitVec.getLsbD, Nat.testBit_zero]
  rw [makeOdd, mpAdd_spec, h0]
  rcases Nat.mod_two_eq_zero_or_one k.toNat with h | h
  · rw [if_pos h, h, decide_eq_false (by decide), Bool.not_false, maskOf_true, BitVec.and_allOnes, BitVec.toNat_ofNat]
  · rw [if_neg (by omega), h, decide_eq_true rfl, Bool.not_true, maskOf_false, BitVec.and_zero, BitVec.toNat_ofNat,
      BitVec.toNat_ofNat, Nat.zero_mod, Nat.add_zero, Nat.mod_eq_of_lt hk]

end Sys2Proof.Machine
end

