-- ==== Sys2Proof/Laws/Schnorr.lean ====
section
/-! SUPPORT. What SIGN and VERIFY compute, in terms of the external primitives (spec/43_schnorrq.md R186, R188). -/

namespace Sys2Proof.Machine

/-- `FROMMONT(SADDM(TOMONT(r mod ORDER), MMUL(TOMONT(h), TOMONT(a))))` is `(r + h · a) mod ORDER` (R186 step 5). -/
theorem signatureScalar_toNat (c : CurveParams) (hc : c.Relations) (r h a : Scalar) :
    (signatureScalar c r h a).toNat = (r.toNat + h.toNat * a.toNat) % c.order.toNat := by
  have hr1 : (montgomeryMultiply c (montgomeryMultiply c r c.rsq) 1#256).toNat = r.toNat % c.order.toNat :=
    moduloOrder_toNat c hc r
  have hto : ∀ x, (montgomeryMultiply c x c.rsq).toNat = x.toNat * 2 ^ 256 % c.order.toNat := toMontgomery_toNat c hc
  have hpos := order_pos c hc
  have hr := hto (montgomeryMultiply c (montgomeryMultiply c r c.rsq) 1#256)
  rw [hr1] at hr
  have hh := hto h
  have ha := hto a
  have htm := montgomeryMultiply_modEq c hc (montgomeryMultiply c h c.rsq) (montgomeryMultiply c a c.rsq)
  have htl := montgomeryMultiply_lt c (montgomeryMultiply c h c.rsq) (montgomeryMultiply c a c.rsq)
    (mul_lt_of_right c _ _ (by rw [ha]; exact Nat.mod_lt _ hpos))
  rw [hh, ha] at htm
  have htm2 : (montgomeryMultiply c (montgomeryMultiply c h c.rsq) (montgomeryMultiply c a c.rsq)).toNat ≡
      h.toNat * a.toNat * 2 ^ 256 [MOD c.order.toNat] := by
    apply radix_cancel c hc
    refine htm.trans (((Nat.mod_modEq _ _).mul (Nat.mod_modEq _ _)).trans ?_)
    have e : h.toNat * 2 ^ 256 * (a.toNat * 2 ^ 256) = h.toNat * a.toNat * 2 ^ 256 * 2 ^ 256 := by ring
    rw [e]
  have hs := addModOrder_canonical c hc _ _ (by rw [hr]; exact Nat.mod_lt _ hpos) htl
  have hf := fromMontgomery_modEq c hc (addModOrder c (montgomeryMultiply c (montgomeryMultiply c
    (montgomeryMultiply c r c.rsq) 1#256) c.rsq) (montgomeryMultiply c (montgomeryMultiply c h c.rsq)
      (montgomeryMultiply c a c.rsq)))
  have hfl := fromMontgomery_lt c hc (addModOrder c (montgomeryMultiply c (montgomeryMultiply c
    (montgomeryMultiply c r c.rsq) 1#256) c.rsq) (montgomeryMultiply c (montgomeryMultiply c h c.rsq)
      (montgomeryMultiply c a c.rsq)))
  rw [hs, hr] at hf
  have hsum : r.toNat % c.order.toNat * 2 ^ 256 % c.order.toNat +
      (montgomeryMultiply c (montgomeryMultiply c h c.rsq) (montgomeryMultiply c a c.rsq)).toNat ≡
      (r.toNat + h.toNat * a.toNat) * 2 ^ 256 [MOD c.order.toNat] := by
    rw [Nat.add_mul]
    exact ((Nat.mod_modEq _ _).trans ((Nat.mod_modEq _ _).mul_right _)).add htm2
  have hfin := radix_cancel c hc (hf.trans ((Nat.mod_modEq _ _).trans hsum))
  have hgoal : signatureScalar c r h a = fromMontgomery c (addModOrder c (montgomeryMultiply c (montgomeryMultiply c
    (montgomeryMultiply c r c.rsq) 1#256) c.rsq) (montgomeryMultiply c (montgomeryMultiply c h c.rsq)
      (montgomeryMultiply c a c.rsq))) := rfl
  rw [hgoal, ← hfin, Nat.mod_eq_of_lt hfl]

/-- The guard of step 6 leaves a canonical value (R186: "step 6 never subtracts"). -/
theorem subtractOrderOnce_canonical (c : CurveParams) (s : Scalar) (h : s.toNat < c.order.toNat) :
    subtractOrderOnce c s = s := by
  rw [subtractOrderOnce, if_neg (by omega)]

theorem scalar64_toNat (hb : Vector Byte 64) : (scalar64 hb).toNat = leInt (hb.toList.take 32) := by
  have h := leInt_lt (hb.toList.take 32)
  rw [scalar64, BitVec.toNat_ofNat]
  apply Nat.mod_eq_of_lt
  simpa using h

/-- What SIGN writes, whatever the externals (R183, R186). -/
theorem schnorrSign_eq {Point : Type} (ext : Externals Point) (c : CurveParams) (hc : c.Relations)
    (subseed pk md : Vector Byte 32) :
    schnorrSign ext c subseed pk md = (nonceEncoding ext subseed md ++
      leBytes (((nonceScalar ext subseed md).toNat +
        (challengeScalar ext (nonceEncoding ext subseed md).toList pk md).toNat * (privateScalar ext subseed).toNat) %
          c.order.toNat) 32 : Vector Byte (32 + 32)) := by
  have h := signatureScalar_toNat c hc (nonceScalar ext subseed md)
    (challengeScalar ext (nonceEncoding ext subseed md).toList pk md) (privateScalar ext subseed)
  rw [schnorrSign, subtractOrderOnce_canonical c _ (by rw [h]; exact Nat.mod_lt _ (order_pos c hc)), h]

/-- When VERIFY answers true (R188). -/
theorem schnorrVerify_iff {Point : Type} (ext : Externals Point) (tag : Fin 32) (pk md : Vector Byte 32)
    (sig : Vector Byte 64) :
    schnorrVerify ext tag pk md sig = true ↔ canonicalEncoding tag pk sig = true ∧ ∃ point q, ext.decode pk = some point ∧
      ext.doubleScalarMulVerify (BitVec.ofNat 256 (leInt (sig.toList.drop 32)))
        (challengeScalar ext (sig.toList.take 32) pk md) point = some q ∧ (ext.encode q).toList = sig.toList.take 32 := by
  rw [schnorrVerify]
  split
  · rename_i hce
    cases hd : ext.decode pk with
    | none => simp
    | some point =>
      cases hq : ext.doubleScalarMulVerify (BitVec.ofNat 256 (leInt (sig.toList.drop 32)))
        (challengeScalar ext (sig.toList.take 32) pk md) point with
      | none => simp [hq]
      | some q => simp [hq, hce]
  · rename_i hce
    simp [hce]

end Sys2Proof.Machine
end

