-- ==== Sys2Proof/Laws/Window.lean ====
section
/-! SUPPORT. The map of the host window: what an access names, and reads after writes (spec/20_memory.md R51, R53, R55). -/

namespace Sys2Proof.Machine

set_option maxRecDepth 8000

/-- An aligned 64-bit access at the offset of a location names it (R51, R55). -/
theorem accessLoc_offset (l : Loc) : accessLoc l.offset 8 = some l := by
  cases l with
  | cmd | status | ecmd => rfl
  | w i => revert i; decide +kernel
  | f i j => revert i j; decide +kernel
  | s i j => revert i j; decide +kernel
  | subseed j => revert j; decide +kernel
  | pubkey j => revert j; decide +kernel
  | digest j => revert j; decide +kernel
  | sig j => revert j; decide +kernel
  | constP j => revert j; decide +kernel
  | constOrder j => revert j; decide +kernel
  | constRsq j => revert j; decide +kernel
  | constNinv j => revert j; decide +kernel
  | constOne j => revert j; decide +kernel

/-- Above offset 0x39F nothing is mapped (R51). -/
theorem locOfWord_ge (k : Nat) (h : 116 ≤ k) : locOfWord k = none := by
  simp only [locOfWord]
  repeat rw [if_neg (by omega)]

/-- The map is the inverse of the offsets (R51). -/
theorem locOfWord_sound (k : Nat) (hk : k < 116) (l : Loc) (h : locOfWord k = some l) : l.offset = 8 * k := by
  have : ∀ k : Fin 116, (locOfWord k.val).all (fun l => l.offset == 8 * k.val) = true := by decide +kernel
  have := this ⟨k, hk⟩
  simp only [h] at this
  simpa using this

/-- All an accepted access can be: 64 bits wide, at the offset of its location (R51, R55). -/
theorem accessLoc_sound (off width : Nat) (l : Loc) (h : accessLoc off width = some l) : width = 8 ∧ off = l.offset := by
  unfold accessLoc at h
  split at h
  · rename_i hw
    refine ⟨hw.1, ?_⟩
    by_cases hk : off / 8 < 116
    · have := locOfWord_sound _ hk l h; omega
    · rw [locOfWord_ge _ (by omega)] at h; cases h
  · cases h

/-- A 64-bit access is unmapped exactly when no location has its offset (R51, R55). -/
theorem accessLoc_none (off : Nat) : accessLoc off 8 = none ↔ ∀ l : Loc, l.offset ≠ off := by
  constructor
  · intro h l e; rw [← e, accessLoc_offset] at h; cases h
  · intro h
    cases e : accessLoc off 8 with
    | none => rfl
    | some l => exact absurd (accessLoc_sound _ _ _ e).2.symm (h l)
/-- A written data word reads back (R53). -/
theorem readLoc_writeLoc_same (s : State) (v : Word) (l : Loc) (h : isData l = true) :
    (s.writeLoc v l).readLoc l = v := by
  cases l with
  | w i => simp only [State.readLoc, State.writeLoc, readW_writeW, if_pos]
  | f i j => simp only [State.readLoc, State.writeLoc, readF_writeF,
        if_pos]; exact wordOf_setWordOf_same _ _ _ (by omega)
  | s i j => simp only [State.readLoc, State.writeLoc, readS_writeS,
        if_pos]; exact wordOf_setWordOf_same _ _ _ (by omega)
  | subseed j => simp only [State.readLoc, State.writeLoc]; exact bufWord_setBufWord_same _ _ _ (by omega) (by omega)
  | pubkey j => simp only [State.readLoc, State.writeLoc]; exact bufWord_setBufWord_same _ _ _ (by omega) (by omega)
  | digest j => simp only [State.readLoc, State.writeLoc]; exact bufWord_setBufWord_same _ _ _ (by omega) (by omega)
  | sig j => simp only [State.readLoc, State.writeLoc]; exact bufWord_setBufWord_same _ _ _ (by omega) (by omega)
  | _ => cases h

/-- A write to a data location changes no other word of the window (R53). -/
theorem readLoc_writeLoc_other (s : State) (v : Word) (l m : Loc) (h : isData l = true) (hne : m ≠ l) :
    (s.writeLoc v l).readLoc m = s.readLoc m := by
  cases l with
  | w i =>
    cases m with
    | w j => simp only [State.readLoc, State.writeLoc, readW_writeW]; rw [if_neg (fun e => hne (by rw [e]))]
    | _ =>
      simp only [State.readLoc, State.writeLoc, State.status, State.readF, State.readS, writeW_freg,
        writeW_sreg, writeW_cf, writeW_subseed, writeW_pubkey, writeW_digest, writeW_sig, writeW_err, writeW_vok,
        writeW_ecode, writeW_ecmd]
  | f i j =>
    cases m with
    | f k l =>
      simp only [State.readLoc, State.writeLoc, readF_writeF]
      split
      · rename_i e
        subst e
        exact wordOf_setWordOf_other _ _ _ _ (by omega) (fun e => hne (by rw [Fin.ext e]))
      · rfl
    | _ =>
      simp only [State.readLoc, State.writeLoc, State.status, State.readW, State.readF, State.readS, writeF_wreg,
        writeF_sreg, writeF_cf, writeF_subseed, writeF_pubkey, writeF_digest, writeF_sig, writeF_err, writeF_vok,
        writeF_ecode, writeF_ecmd]
  | s i j =>
    cases m with
    | s k l =>
      simp only [State.readLoc, State.writeLoc, readS_writeS]
      split
      · rename_i e
        subst e
        exact wordOf_setWordOf_other _ _ _ _ (by omega) (fun e => hne (by rw [Fin.ext e]))
      · rfl
    | _ =>
      simp only [State.readLoc, State.writeLoc, State.status, State.readW, State.readF, State.readS, writeS_wreg,
        writeS_freg, writeS_cf, writeS_subseed, writeS_pubkey, writeS_digest, writeS_sig, writeS_err, writeS_vok,
        writeS_ecode, writeS_ecmd]
  | subseed j =>
    cases m with
    | subseed k =>
      simp only [State.readLoc, State.writeLoc]
      exact bufWord_setBufWord_other _ _ _ _ (by omega) (fun e => hne (by rw [Fin.ext e]))
    | _ =>
      simp only [State.readLoc, State.writeLoc, State.status, State.readW, State.readF, State.readS]
  | pubkey j =>
    cases m with
    | pubkey k =>
      simp only [State.readLoc, State.writeLoc]
      exact bufWord_setBufWord_other _ _ _ _ (by omega) (fun e => hne (by rw [Fin.ext e]))
    | _ =>
      simp only [State.readLoc, State.writeLoc, State.status, State.readW, State.readF, State.readS]
  | digest j =>
    cases m with
    | digest k =>
      simp only [State.readLoc, State.writeLoc]
      exact bufWord_setBufWord_other _ _ _ _ (by omega) (fun e => hne (by rw [Fin.ext e]))
    | _ =>
      simp only [State.readLoc, State.writeLoc, State.status, State.readW, State.readF, State.readS]
  | sig j =>
    cases m with
    | sig k =>
      simp only [State.readLoc, State.writeLoc]
      exact bufWord_setBufWord_other _ _ _ _ (by omega) (fun e => hne (by rw [Fin.ext e]))
    | _ =>
      simp only [State.readLoc, State.writeLoc, State.status, State.readW, State.readF, State.readS]
  | _ => cases h

end Sys2Proof.Machine
end

