-- ==== Sys2Proof/Laws/Step.lean ====
section
/-! SUPPORT. What a step does on each kind of move the host can make, said once (spec/20_memory.md R52, R53, R58). -/

namespace Sys2Proof.Machine

/-- No move to come (log 2). -/
theorem step_idle (s : State) (h : s.port = []) : step s = .next s := by
  simp only [step, serveNext, h]

/-- What a location reads does not depend on the moves of the host or on the reply. -/
theorem readLoc_takeMove (s : State) (rest : List HostEvent) (l : Loc) : (s.takeMove rest).readLoc l = s.readLoc l := by
  cases l <;> simp only [State.takeMove, State.readLoc, State.status, State.readW, State.readF, State.readS]

/-- A read of a location (R52). -/
theorem step_read (s : State) (l : Loc) (rest : List HostEvent) (h : s.port = .read l.offset 8 :: rest) :
    step s = .next { s with port := rest, reply := some (s.readLoc l) } := by
  simp only [step, serveNext, h, serveEvent, accessLoc_offset, readLoc_takeMove]
  simp only [State.takeMove]

/-- A write of a location (R53). -/
theorem step_write (s : State) (l : Loc) (v : Word) (rest : List HostEvent) (h : s.port = .write l.offset 8 v :: rest) :
    step s = serveWrite l v { s with port := rest, reply := none } := by
  simp only [step, serveNext, h, serveEvent, accessLoc_offset, State.takeMove]

/-- A write of `CMD` (R70). -/
theorem step_cmd (s : State) (v : Word) (rest : List HostEvent) (h : s.port = .write 0x000 8 v :: rest) :
    step s = issueCommand v { s with port := rest, reply := none } := by
  rw [step_write s .cmd v rest h, serveWrite, if_pos rfl]

/-- The reset as a move (R230). -/
theorem step_reset (s : State) (rest : List HostEvent) (h : s.port = .reset :: rest) :
    step s = .next { State.afterReset s.draws with port := rest } := by
  simp only [step, serveNext, h, serveEvent, State.takeMove, State.applyReset]

/-- An access that the window does not accept (R55). -/
theorem step_bad_read (s : State) (off width : Nat) (rest : List HostEvent) (h : s.port = .read off width :: rest)
    (ha : accessLoc off width = none) : step s = .refused (.hostProtocolViolation off width) := by
  simp only [step, serveNext, h, serveEvent, ha]

/-- An access that the window does not accept (R55). -/
theorem step_bad_write (s : State) (off width : Nat) (v : Word) (rest : List HostEvent)
    (h : s.port = .write off width v :: rest) (ha : accessLoc off width = none) :
    step s = .refused (.hostProtocolViolation off width) := by
  simp only [step, serveNext, h, serveEvent, ha]

end Sys2Proof.Machine
end

