-- ==== Sys2Proof/Tests/Slice0.lean ====
section
/-! SUPPORT. Tests of the model. Expected values are those of spec/95_test_vectors.md, its section named, unless a
comment says otherwise. The last part shows for each statement with hypotheses a state and operands that meet them. -/

namespace Sys2Proof.Tests

open Sys2Proof Sys2Proof.Machine

set_option maxRecDepth 8000
set_option Elab.async false

/-! ## Helpers -/

/-- A state with zero in every register and buffer: a starting point for tests, not the reset state. -/
def zero : State where
  wreg := Vector.replicate 8 0#64
  freg := Vector.replicate 8 0#128
  sreg := Vector.replicate 8 0#256
  cf := false
  subseed := Vector.replicate 32 0#8
  pubkey := Vector.replicate 32 0#8
  digest := Vector.replicate 32 0#8
  sig := Vector.replicate 64 0#8
  err := false
  vok := false
  ecode := 0#8
  ecmd := 0#64
  port := []
  reply := none
  draws := 0

/-- The next state, where there is one. -/
def next : Host.Outcome State Fault Refusal → Option State
  | .next t => some t
  | .fault _ => none
  | .refused _ => none

/-- One step on a write of `v` to `CMD`. -/
def cmd (v : Word) (s : State) : Option State := next (step { s with port := [.write 0x000 8 v] })

/-- The word registers 1 and 2 of the vectors of section 2.1. -/
def withW (a b : Word) : State := (zero.writeW 1 a).writeW 2 b

/-- The field registers 1 and 2 of the vectors of section 2.2. -/
def withF (a b : FieldWord) : State := (zero.writeF 1 a).writeF 2 b

/-- The scalar registers 1 and 2 of the vectors of section 2.3. -/
def withS (a b : Scalar) : State := (zero.writeS 1 a).writeS 2 b

/-- A of section 2.2. -/
def vA : FieldWord := 0x0123456789ABCDEFFEDCBA9876543210#128

/-- B of section 2.2. -/
def vB : FieldWord := 0x7EDCBA9876543210123456789ABCDEF0#128

/-- X of section 2.3. -/
def vX : Scalar := 0x0011223344556677_8899AABBCCDDEEFF_0123456789ABCDEF_FEDCBA9876543210#256

/-- Y of section 2.3. -/
def vY : Scalar := 0x0029000000000000_0000000000000000_FFFFFFFFFFFFFFFF_0000000000000001#256

/-! ## WellFormed: the check refuses an ill-formed term -/

theorem test_wellFormed_adc_cin3 : (Instr.adc 0 1 2 3#2).wellFormed = false := by decide

theorem test_wellFormed_sbb_cin3 : (Instr.sbb 0 1 2 3#2).wellFormed = false := by decide

theorem test_wellFormed_adc_cf : (Instr.adc 0 1 2 2#2).wellFormed = true := by decide

/-! ## Decoding: a word written out for every command (section 3) -/

theorem test_decode_constantTime :
    decodeCmd 0x10010000#64 = .command (.ctnz 0 1) ∧ decodeCmd 0x11220000#64 = .command (.ctz 2 2) ∧
    decodeCmd 0x12012000#64 = .command (.ctlt 0 1 2) ∧ decodeCmd 0x13012000#64 = .command (.adc 0 1 2 0#2) ∧
    decodeCmd 0x13777800#64 = .command (.adc 7 7 7 2#2) ∧ decodeCmd 0x14345400#64 = .command (.sbb 3 4 5 1#2) := by
  decide

theorem test_decode_field :
    decodeCmd 0x20010000#64 = .command (.fred 0 1) ∧ decodeCmd 0x21012000#64 = .command (.fadd 0 1 2) ∧
    decodeCmd 0x22012000#64 = .command (.fsub 0 1 2) ∧ decodeCmd 0x23010000#64 = .command (.fneg 0 1) ∧
    decodeCmd 0x24201000#64 = .command (.fmul 2 0 1) ∧ decodeCmd 0x25010000#64 = .command (.fsqr 0 1) ∧
    decodeCmd 0x26010000#64 = .command (.fhalf 0 1) ∧ decodeCmd 0x27010000#64 = .command (.fpow125 0 1) ∧
    decodeCmd 0x28770000#64 = .command (.finv 7 7) := by
  decide

theorem test_decode_scalar :
    decodeCmd 0x30012000#64 = .command (.mpadd 0 1 2) ∧ decodeCmd 0x31012000#64 = .command (.mpsub 0 1 2) ∧
    decodeCmd 0x32012000#64 = .command (.saddm 0 1 2) ∧ decodeCmd 0x33012000#64 = .command (.ssubm 0 1 2) ∧
    decodeCmd 0x34765000#64 = .command (.mmul 7 6 5) ∧ decodeCmd 0x35010000#64 = .command (.tomont 0 1) ∧
    decodeCmd 0x36010000#64 = .command (.frommont 0 1) ∧ decodeCmd 0x37010000#64 = .command (.smodr 0 1) ∧
    decodeCmd 0x38010000#64 = .command (.mkodd 0 1) := by
  decide

theorem test_decode_protocol :
    decodeCmd 0x40000000#64 = .command .sign ∧ decodeCmd 0x41000000#64 = .command .verify := by
  decide

/-- The word of SBB W3, W4, W5, c1 put together bit by bit from R71: op 0x14, z23 0, rd 3, z19 0, ra 4, z15 0, rb 5,
cin 1, z9 0. -/
theorem test_decode_bit_by_bit :
    decodeWord 0b00010100_0_011_0_100_0_101_01_0000000000#32 = .command (.sbb 3 4 5 1#2) := by
  decide

/-- The refusal vectors of section 3, in its order. -/
theorem test_refusals :
    [(0x0000000000000000#64, 1#8), (0x0000000099000000#64, 1#8), (0x0000000015000000#64, 1#8),
      (0x0000000029000000#64, 1#8), (0x0000000039000000#64, 1#8), (0x0000000042000000#64, 1#8),
      (0x00000000FFFFFFFF#64, 1#8), (0x0000000112012000#64, 2#8), (0x8000000099000000#64, 2#8),
      (0x0000000012812000#64, 2#8), (0x0000000012092000#64, 2#8), (0x000000001201A000#64, 2#8),
      (0x0000000012012400#64, 2#8), (0x0000000012012001#64, 2#8), (0x0000000010011000#64, 2#8),
      (0x0000000010010400#64, 2#8), (0x0000000040100000#64, 2#8), (0x0000000041000001#64, 2#8),
      (0x0000000013012C00#64, 3#8), (0x0000000014012C00#64, 3#8), (0x0000000013012C01#64, 2#8)].all
      (fun v => (cmd v.1 zero).any fun t =>
        t.status == v.2.setWidth 64 <<< 8 ||| 1#64 && t.ecmd == v.1 && t.wreg == zero.wreg) = true := by
  decide +kernel

theorem test_decodeTableWord : decodeTableWord 32 0x24201000 = some (.fmul 2 0 1) ∧ decodeTableWord 32 0x15000000 = none := by
  decide

/-- The step after reset runs exactly the word that `withFetchWord` places. -/
theorem test_withFetchWord_runs_the_word :
    step (State.reset.withFetchWord 32 0x12012000) = exec (.ctlt 0 1 2) State.reset := rfl

/-! ## Constant-time primitives (section 2.1) -/

theorem test_ctnz : (cmd 0x10010000#64 (withW 0x8000000000000000#64 0#64)).map (·.readW 0) = some 1#64 := by
  decide +kernel

theorem test_ctnz_zero : (cmd 0x10110000#64 (withW 0#64 0#64)).map (·.readW 1) = some 0#64 := by decide +kernel

theorem test_ctz_in_place : (cmd 0x11220000#64 (withW 5#64 0#64)).map (·.readW 2) = some 1#64 := by decide +kernel

theorem test_ctlt_vectors :
    [(0x0#64, 0x0#64, 0x0#64), (0x0#64, 0x1#64, 1#64), (0x1#64, 0x0#64, 0#64), (0xFFFFFFFFFFFFFFFF#64, 0x0#64, 0#64),
      (0x0#64, 0xFFFFFFFFFFFFFFFF#64, 1#64), (0x8000000000000000#64, 0x7FFFFFFFFFFFFFFF#64, 0#64),
      (0x7FFFFFFFFFFFFFFF#64, 0x8000000000000000#64, 1#64), (0xFFFFFFFFFFFFFFFE#64, 0xFFFFFFFFFFFFFFFF#64, 1#64)].all
      (fun v => lessThanBit v.1 v.2.1 == v.2.2) = true := by
  decide +kernel

theorem test_ctlt : (cmd 0x12012000#64 (withW 5#64 7#64)).map (·.readW 0) = some 1#64 := by decide +kernel

theorem test_adc_reads_cf_before_writing_it :
    (cmd 0x13012800#64 { withW 0xFFFFFFFFFFFFFFFF#64 0xFFFFFFFFFFFFFFFF#64 with cf := true }).map
      (fun t => (t.readW 0, t.cf)) = some (0xFFFFFFFFFFFFFFFF#64, true) := by
  decide +kernel

theorem test_adc_no_carry :
    (cmd 0x13012000#64 { withW 0x0123456789ABCDEF#64 0xFEDCBA9876543210#64 with cf := true }).map
      (fun t => (t.readW 0, t.cf)) = some (0xFFFFFFFFFFFFFFFF#64, false) := by
  decide +kernel

theorem test_sbb_borrow_in :
    (cmd 0x14012400#64 (withW 0#64 0xFFFFFFFFFFFFFFFF#64)).map (fun t => (t.readW 0, t.cf)) = some (0#64, true) := by
  decide +kernel

theorem test_sbb_no_borrow :
    (cmd 0x14012400#64 (withW 0x8000000000000000#64 0x7FFFFFFFFFFFFFFF#64)).map (fun t => (t.readW 0, t.cf)) =
      some (0#64, false) := by
  decide +kernel

/-! ## The field engine (section 2.2) -/

theorem test_fred_vectors :
    [(0x7FFFFFFFFFFFFFFFFFFFFFFFFFFFFFFE#128, 0x7FFFFFFFFFFFFFFFFFFFFFFFFFFFFFFE#128),
      (0x7FFFFFFFFFFFFFFFFFFFFFFFFFFFFFFF#128, 0#128), (0x80000000000000000000000000000000#128, 1#128),
      (0xFFFFFFFFFFFFFFFFFFFFFFFFFFFFFFFD#128, 0x7FFFFFFFFFFFFFFFFFFFFFFFFFFFFFFE#128),
      (0xFFFFFFFFFFFFFFFFFFFFFFFFFFFFFFFE#128, 0x7FFFFFFFFFFFFFFFFFFFFFFFFFFFFFFF#128),
      (0xFFFFFFFFFFFFFFFFFFFFFFFFFFFFFFFF#128, 0x80000000000000000000000000000000#128),
      (0x8123456789ABCDEFFEDCBA987654320F#128, vA)].all (fun v => fieldReduce v.1 == v.2) = true := by
  decide +kernel

theorem test_fred : (cmd 0x20010000#64 (withF 0x80000000000000000000000000000000#128 0#128)).map (·.readF 0) =
    some 1#128 := by
  decide +kernel

theorem test_fadd : (cmd 0x21012000#64 (withF vA vB)).map (·.readF 0) =
    some 0x00000000000000001111111111111101#128 := by
  decide +kernel

theorem test_fadd_to_P_is_zero : fieldAdd 0x3FFFFFFFFFFFFFFFFFFFFFFFFFFFFFFF#128 0x40000000000000000000000000000000#128 =
    0#128 := by
  decide +kernel

theorem test_fsub : (cmd 0x22012000#64 (withF vA vB)).map (·.readF 0) =
    some 0x02468ACF13579BDFECA8641FDB97531F#128 := by
  decide +kernel

theorem test_fneg : (cmd 0x23010000#64 (withF vA 0#128)).map (·.readF 0) =
    some 0x7EDCBA98765432100123456789ABCDEF#128 := by
  decide +kernel

theorem test_fneg_zero : (cmd 0x23010000#64 (withF 0#128 0#128)).map (·.readF 0) = some 0#128 := by decide +kernel

theorem test_fmul : (cmd 0x24012000#64 (withF vA vB)).map (·.readF 0) =
    some 0x3C8ADC055C35E7C8649D6D90C2BF4205#128 := by
  decide +kernel

theorem test_fmul_minus_one_squared :
    fieldMul 0x7FFFFFFFFFFFFFFFFFFFFFFFFFFFFFFE#128 0x7FFFFFFFFFFFFFFFFFFFFFFFFFFFFFFE#128 = 1#128 := by
  decide +kernel

theorem test_fsqr : (cmd 0x25010000#64 (withF vA 0#128)).map (·.readF 0) =
    some 0x422B08854C0762069CC018EB7C0EE84C#128 := by
  decide +kernel

theorem test_fhalf_odd : (cmd 0x26010000#64 (withF 0x0123456789ABCDEFFEDCBA9876543211#128 0#128)).map (·.readF 0) =
    some 0x4091A2B3C4D5E6F7FF6E5D4C3B2A1908#128 := by
  decide +kernel

theorem test_fhalf_even : (cmd 0x26010000#64 (withF vA 0#128)).map (·.readF 0) =
    some 0x0091A2B3C4D5E6F7FF6E5D4C3B2A1908#128 := by
  decide +kernel

theorem test_fpow125 : (cmd 0x27010000#64 (withF vA 0#128)).map (·.readF 0) =
    some 0x6047D37F0114C895DEAE84A923E6AD5E#128 := by
  decide +kernel

theorem test_fpow125_chain : fieldPowChain vA = 0x6047D37F0114C895DEAE84A923E6AD5E#128 := by decide +kernel

theorem test_finv : (cmd 0x28010000#64 (withF vA 0#128)).map (·.readF 0) =
    some 0x08102040810203F90102040810204071#128 := by
  decide +kernel

theorem test_finv_zero : (cmd 0x28010000#64 (withF 0#128 0#128)).map (·.readF 0) = some 0#128 := by decide +kernel

/-! ## The scalar engine (section 2.3) -/

theorem test_mpadd : (cmd 0x30012000#64 (withS vX vY)).map (fun t => (t.readS 0, t.cf)) =
    some (0x003A223344556677_8899AABBCCDDEF00_0123456789ABCDEE_FEDCBA9876543211#256, false) := by
  decide +kernel

theorem test_mpadd_wraps : (cmd 0x30012000#64 (withS (BitVec.allOnes 256) 1#256)).map (fun t => (t.readS 0, t.cf)) =
    some (0#256, true) := by
  decide +kernel

theorem test_mpsub : (cmd 0x31012000#64 (withS vX vY)).map (fun t => (t.readS 0, t.cf)) =
    some (0xFFE8223344556677_8899AABBCCDDEEFE_0123456789ABCDF0_FEDCBA987654320F#256, true) := by
  decide +kernel

theorem test_saddm : (cmd 0x32012000#64 (withS vX vY)).map (·.readS 0) =
    some 0x00105671F5F75C04_984613393021DA1A_216645198B9C5455_CF2A6689AEDDA52A#256 := by
  decide +kernel

theorem test_saddm_drops_the_carry : (cmd 0x32012000#64 (withS (BitVec.allOnes 256) 1#256)).map
    (fun t => (t.readS 0, t.cf)) = some (0#256, false) := by
  decide +kernel

theorem test_ssubm : (cmd 0x33012000#64 (withS vX vY)).map (·.readS 0) =
    some 0x0011EDF492B370EA_78ED423E699A03E3_E0E045B587BB478A_2E8F0EA73DCABEF6#256 := by
  decide +kernel

theorem test_ssubm_order_not_reduced : (cmd 0x33012000#64 (withS Config.curve.order 0#256)).map (·.readS 0) =
    some Config.curve.order := by
  decide +kernel

theorem test_mmul : (cmd 0x34012000#64 (withS 2#256 3#256)).map (·.readS 0) =
    some 0x001D35E3953E74A7_A1603833855A2A4E_D224DBBC63E9BA82_1C4038EE7948DA47#256 := by
  decide +kernel

theorem test_mmul_not_canonical : (cmd 0x34012000#64 (withS (BitVec.allOnes 256) (BitVec.allOnes 256))).map (·.readS 0) =
    some 0xFFFDE705B67ABC5E_1D821AC826C50391_7DBBF9E7BBA46026_D217A625484DB78E#256 := by
  decide +kernel

theorem test_tomont : (cmd 0x35010000#64 (withS vX 0#256)).map (·.readS 0) =
    some 0x0003A962D635ECCD_F2EE2419AC79E3D3_96F45EF49AD50E8B_099B180F41133AC9#256 := by
  decide +kernel

theorem test_frommont :
    (cmd 0x36010000#64 (withS 0x0003A962D635ECCD_F2EE2419AC79E3D3_96F45EF49AD50E8B_099B180F41133AC9#256 0#256)).map
      (·.readS 0) = some vX := by
  decide +kernel

theorem test_smodr : (cmd 0x37010000#64 (withS (BitVec.allOnes 256) 0#256)).map (·.readS 0) =
    some 0x0000000000000000_0000000000000005_9A5E224BE13735BB_DBBD257A49E0F91F#256 := by
  decide +kernel

theorem test_mkodd_even : (cmd 0x38010000#64 (withS 4#256 0#256)).map (·.readS 0) =
    some 0x0029CBC14E5E0A72_F05397829CBC14E5_DFBD004DFE0F7999_2FB2540EC7768CEB#256 := by
  decide +kernel

theorem test_mkodd_wraps : (cmd 0x38010000#64 (withS (BitVec.allOnes 256 - 1#256) 0#256)).map (·.readS 0) =
    some 0x0029CBC14E5E0A72_F05397829CBC14E5_DFBD004DFE0F7999_2FB2540EC7768CE5#256 := by
  decide +kernel

/-! ## SIGN and VERIFY with the mock externals of section 4 -/

/-- The accumulator of the mock hash. -/
def mockAcc : List Byte → Nat → Nat
  | [], acc => acc
  | b :: rest, acc => mockAcc rest ((acc * 0x100000001B3 + b.toNat + 1) % 2 ^ 64)

/-- The mock hash. -/
def mockHash (inp : List Byte) (n : Nat) : Vector Byte n :=
  Vector.ofFn fun i : Fin n =>
    BitVec.ofNat 8 ((((mockAcc inp inp.length + i.val + 1) * 0x9E3779B97F4A7C15) % 2 ^ 64) / 2 ^ 56)

/-- The order of the mock group. -/
def mockOrder : Nat := Config.curve.order.toNat

/-- The mock encoding: a zero inserted at bit 127. -/
def mockEncode (t : Nat) : Vector Byte 32 := leBytes (t % 2 ^ 127 + t / 2 ^ 127 * 2 ^ 128) 32

/-- The mock decoding. -/
def mockDecode (b : Vector Byte 32) : Option Nat :=
  let e := leInt b.toList
  let t := e % 2 ^ 127 + e / 2 ^ 128 * 2 ^ 127
  if e / 2 ^ 127 % 2 ≠ 0 ∨ e / 2 ^ 255 % 2 ≠ 0 then none else if mockOrder ≤ t then none else some t

/-- The mock externals, a point being its number. -/
def mockExternals : Externals Nat where
  hash := mockHash
  fixedBaseMul k := k.toNat % mockOrder
  encode := mockEncode
  decode := mockDecode
  doubleScalarMulVerify s h a :=
    if mockOrder ≤ s.toNat then none else some (((s.toNat : Int) - h.toNat * a) % mockOrder).toNat

/-- `SUBSEED` of section 4. -/
def mockSubseed : Vector Byte 32 := Vector.ofFn fun i => BitVec.ofNat 8 i.val

/-- `DIGEST` of section 4. -/
def mockDigest : Vector Byte 32 := Vector.ofFn fun i => BitVec.ofNat 8 (0xa0 + i.val)

/-- `PUBKEY` of section 4. -/
def mockPubkey : Vector Byte 32 :=
  leBytes 0x00315421590A227E_C425A47C26CA3430_6F6F2F3AE841759B_119A49F28D0341B5 32

/-- `SIG` of section 4. -/
def mockSig : Vector Byte 64 :=
  leBytes 0x00129BA72457558A_BFB231DDD82C4F1A_05E8A4563C583932_C18E8E07404D10AD_0011E25380C0E6ED_9D7C5E7A0FCD58AC_34D002C57B7982E8_C512630518CDA192 64

theorem test_mock_hash : (mockHash [0x61#8, 0x62#8, 0x63#8] 8).toList =
    [0x66#8, 0x04#8, 0xa3#8, 0x41#8, 0xdf#8, 0x7d#8, 0x1b#8, 0xba#8] := by
  decide +kernel

theorem test_sign : schnorrSign mockExternals Config.curve mockSubseed mockPubkey mockDigest = mockSig := by
  decide +kernel

theorem test_verify : schnorrVerify mockExternals Config.pkTagByte mockPubkey mockDigest mockSig = true := by
  decide +kernel

/-- Rejections of section 4: steps 1, 2, 5 and 4. -/
theorem test_verify_rejects :
    schnorrVerify mockExternals Config.pkTagByte mockPubkey mockDigest (mockSig.set 62 (mockSig[62] ||| 0x40#8)) = false ∧
    schnorrVerify mockExternals Config.pkTagByte (mockPubkey.set 15 (mockPubkey[15] ||| 0x80#8)) mockDigest mockSig =
      false ∧
    schnorrVerify mockExternals Config.pkTagByte mockPubkey (mockDigest.set 0 0xa1#8) mockSig = false ∧
    schnorrVerify mockExternals Config.pkTagByte mockPubkey mockDigest (Vector.ofFn fun i : Fin 64 =>
      if i.val < 32 then mockSig[i] else (leBytes (leInt (mockSig.toList.drop 32) + mockOrder) 32)[i.val - 32]!) =
        false := by
  decide +kernel

/-! ## The host window, the error record, reset -/

/-- Little-endian within a word (R54): byte 0 of the buffer is the lowest byte of word 0. -/
theorem test_buffer_write : (next (step { zero with port := [.write 0x200 8 0x0706050403020100#64] })).map
    (fun t => (t.subseed[0], t.subseed[7], t.subseed[8])) = some (0x00#8, 0x07#8, 0#8) := by
  decide +kernel

theorem test_field_word_write : (next (step { zero with port := [.write 0x098 8 0x0123456789ABCDEF#64] })).map
    (·.readF 1) = some 0x0123456789ABCDEF0000000000000000#128 := by
  decide +kernel

theorem test_scalar_word_read : (next (step { zero.writeS 7 vX with port := [.read 0x1F8 8] })).map (·.reply) =
    some (some 0x0011223344556677#64) := by
  decide +kernel

theorem test_const_read : (next (step { zero with port := [.read 0x338 8] })).map (·.reply) =
    some (some 0x0029CBC14E5E0A72#64) := by
  decide +kernel

/-- Program 4 of section 5: the first refusal is kept, and bit 0 of a `STATUS` write clears it. -/
theorem test_record_kept_then_cleared :
    (cmd 0x99000000#64 { zero with err := true, ecode := 3#8, ecmd := 0x13012C00#64 }).map (fun t => (t.status, t.ecmd)) =
      some (0x301#64, 0x13012C00#64) ∧
    (next (step { zero with err := true, ecode := 3#8, ecmd := 0x13012C00#64, port := [.write 0x008 8 1#64] })).map
      (fun t => (t.status, t.ecmd)) = some (0#64, 0#64) := by
  decide +kernel

theorem test_reset_move_clears_flags :
    (next (step { zero with cf := true, vok := true, err := true, port := [.reset] })).map (·.status) = some 0#64 := rfl

/-! ## Assembler (R79 to R81) -/

theorem test_asm_text : asmText (.adc 7 6 5 2#2) = some "ADC W7, W6, W5, cf" ∧ asmText .sign = some "SIGN" ∧
    asmText (.adc 7 6 5 3#2) = none := by
  decide

theorem test_asm_line : assembleLine "ADC W5, W1, W3, cf       ; 0x13513800" = some (.adc 5 1 3 2#2) ∧
    assembleLine "FDBL F7, F6" = some (.fadd 7 6 6) ∧ assembleLine "VERIFY" = some .verify ∧
    assembleLine "FADD F3, W4, F1" = none := by
  decide +kernel

theorem test_host_write : hostWrite "F1" [0xFEDCBA9876543210#64, 0x0123456789ABCDEF#64] =
    some [.write 0x090 8 0xFEDCBA9876543210#64, .write 0x098 8 0x0123456789ABCDEF#64] ∧
    hostWrite "DIGEST.0" [0xA7A6A5A4A3A2A1A1#64] = some [.write 0x240 8 0xA7A6A5A4A3A2A1A1#64] ∧
    hostWriteBytes "SUBSEED.0" [0#8, 1#8, 2#8, 3#8, 4#8, 5#8, 6#8, 7#8] =
      some [.write 0x200 8 0x0706050403020100#64] ∧ hostRead "S2.0" = some [.read 0x140 8] := by
  decide +kernel

/-! ## Witnesses: the hypotheses of each statement met together, at boundary values where it has clauses -/

/-- StepRunsDecodedCommand, DecodedCommandsNeverRaise, EncodeOfDecode. -/
theorem witness_decoded_command : ∃ (s : State) (v : Word) (rest : List HostEvent) (i : Instr),
    s.port = .write 0x000 8 v :: rest ∧ decodeCmd v = .command i :=
  ⟨{ zero with port := [.write 0x000 8 0x13777800#64, .reset] }, _, _, .adc 7 7 7 2#2, rfl, by decide⟩

/-- RefusedCommandIsRecordedOnce, its inner hypotheses too: a refused value, then a legal one. -/
theorem witness_refused_then_legal :
    ∃ (s t : State) (v w : Word) (rest more : List HostEvent) (c : RefuseCode) (i : Instr),
      s.port = .write 0x000 8 v :: rest ∧ decodeCmd v = .refuse c ∧ step s = .next t ∧
      rest = .write 0x000 8 w :: more ∧ decodeCmd w = .command i :=
  ⟨{ zero with port := [.write 0x000 8 0x99000000#64, .write 0x000 8 0x12012000#64] }, _, _, _, _, _, .illegalOpcode,
    .ctlt 0 1 2, rfl, by decide, rfl, rfl, by decide⟩

/-- RefusalCausesInPriorityOrder: one value for each of its five clauses, at the edges of the fields. -/
theorem witness_refusal_causes :
    (0x0000000112012000#64).extractLsb' 32 32 ≠ 0#32 ∧
    ((0x0000000042000000#64).extractLsb' 32 32 = 0#32 ∧ (0x0000000042000000#64).extractLsb' 24 8 = 0x42#8) ∧
    ((0x0000000041000001#64).extractLsb' 32 32 = 0#32 ∧ (0x0000000041000001#64).extractLsb' 24 8 = 0x41#8 ∧
      0x0000000041000001#64 &&& 0x00FFFFFF#64 ≠ 0#64) ∧
    ((0x0000000014012C00#64).extractLsb' 32 32 = 0#32 ∧ (0x0000000014012C00#64).extractLsb' 24 8 = 0x14#8 ∧
      0x0000000014012C00#64 &&& 0x008883FF#64 = 0#64 ∧ (0x0000000014012C00#64).extractLsb' 10 2 = 3#2) ∧
    ((0x0000000013777800#64).extractLsb' 32 32 = 0#32 ∧ (0x0000000013777800#64).extractLsb' 24 8 = 0x13#8 ∧
      0x0000000013777800#64 &&& 0x008883FF#64 = 0#64 ∧ (0x0000000013777800#64).extractLsb' 10 2 = 2#2) := by
  decide

/-- DecodeOfEncode, AssemblerReadsItsOwnText. -/
theorem witness_wellFormed : ∃ i : Instr, i.wellFormed = true := ⟨.sbb 7 0 7 2#2, by decide⟩

/-- AdcResult, SbbResult: the three legal selectors. -/
theorem witness_carry_in : ∀ cf : Bool, ∀ p ∈ [(0#2, false), (1#2, true), (2#2, cf)],
    (p.1 = 0#2 ∧ p.2 = false ∨ p.1 = 1#2 ∧ p.2 = true ∨ p.1 = 2#2 ∧ p.2 = cf) := by
  decide

/-- FredResult: its three cases, at 2P − 1, 2P and 2P + 1. -/
theorem witness_fred :
    ((withF 0xFFFFFFFFFFFFFFFFFFFFFFFFFFFFFFFD#128 0#128).freg[1].toNat < 2 * Config.P) ∧
    ((withF 0xFFFFFFFFFFFFFFFFFFFFFFFFFFFFFFFE#128 0#128).freg[1].toNat = 2 ^ 128 - 2) ∧
    ((withF 0xFFFFFFFFFFFFFFFFFFFFFFFFFFFFFFFF#128 0#128).freg[1].toNat = 2 ^ 128 - 1) := by
  decide +kernel

/-- FaddResult, FsubResult, FmulResult, and with one operand FnegResult, FsqrResult, FhalfResult, Fpow125Result,
FinvResult, FieldLaws, PowerChainRefinesFpow125: canonical operands, the greatest and zero. -/
theorem witness_canonical_field : ∃ s : State,
    s.freg[1].toNat < Config.P ∧ s.freg[2].toNat < Config.P ∧ s.freg[1].toNat = Config.P - 1 ∧ s.freg[2].toNat = 0 :=
  ⟨withF 0x7FFFFFFFFFFFFFFFFFFFFFFFFFFFFFFE#128 0#128, by decide +kernel⟩

/-- FinvResult: the inner hypotheses, the other inverse and its product. -/
theorem witness_inverse : ∃ (a : FieldWord) (w : Nat),
    a.toNat < Config.P ∧ a.toNat ≠ 0 ∧ w < Config.P ∧ a.toNat * w % Config.P = 1 :=
  ⟨2#128, 2 ^ 126, by decide +kernel⟩

/-- FieldCommandsCompleteOnEveryOperand: a member of its list; and the command completes on an operand that is not
canonical. -/
theorem witness_field_on_any_operand :
    (Instr.fmul 0 1 2) ∈ ([.fadd 0 1 2, .fsub 0 1 2, .fneg 0 1, .fmul 0 1 2, .fsqr 0 1, .fhalf 0 1, .fpow125 0 1,
      .finv 0 1] : List Instr) ∧
    (next (exec (.fmul 0 1 2) (withF (BitVec.allOnes 128) 0#128))).map (fun t => t.draws) = some 1 := by
  decide +kernel

/-- FieldLaws, second part: an operand at or above P and below 2P. -/
theorem witness_below_2P : Config.P ≤ (0xFFFFFFFFFFFFFFFFFFFFFFFFFFFFFFFD#128 : FieldWord).toNat ∧
    (0xFFFFFFFFFFFFFFFFFFFFFFFFFFFFFFFD#128 : FieldWord).toNat < 2 * Config.P := by
  decide

/-- RippleChainsEqualWideAddAndSub: lists of one length. -/
theorem witness_ripple : ∃ (n : Nat) (as bs : List Word), as.length = n ∧ bs.length = n :=
  ⟨4, [0xFFFFFFFFFFFFFFFF#64, 0#64, 1#64, 2#64], [1#64, 0#64, 3#64, 4#64], rfl, rfl⟩

/-- SsubmResult, SaddmResult, FrommontResult, MkoddResult: each of their cases, where the clauses meet. -/
theorem witness_scalar_cases :
    let order := Config.curve.order.toNat
    ((withS 5#256 5#256).sreg[2].toNat ≤ (withS 5#256 5#256).sreg[1].toNat) ∧
    ((withS 4#256 5#256).sreg[1].toNat < (withS 4#256 5#256).sreg[2].toNat) ∧
    ((withS vX vY).sreg[1].toNat < order ∧ (withS vX vY).sreg[2].toNat < order) ∧
    (order ≤ ((withS Config.curve.order 0#256).sreg[1].toNat + (withS Config.curve.order 0#256).sreg[2].toNat) % 2 ^ 256) ∧
    (((withS (Config.curve.order - 1#256) 0#256).sreg[1].toNat +
      (withS (Config.curve.order - 1#256) 0#256).sreg[2].toNat) % 2 ^ 256 < order) ∧
    ((withS vX vY).sreg[1].toNat + order < 2 ^ 256) := by
  decide +kernel

/-- MmulResult: a product that needs the final subtraction, one that does not, and a product below 2^256 · ORDER. -/
theorem witness_mmul_cases :
    let order := Config.curve.order.toNat
    let total := fun ma mb : Nat => ma * mb + ma * mb * Config.curve.ninv.toNat % 2 ^ 256 * order
    order ≤ total (2 ^ 256 - 1) (2 ^ 256 - 1) / 2 ^ 256 ∧ total 2 3 / 2 ^ 256 < order ∧
      2 * 3 < 2 ^ 256 * order := by
  decide +kernel

/-- MontgomeryDomainLaws: the machine's own constants, and a canonical operand. -/
theorem witness_curve : Config.curve.Relations ∧ vX.toNat < Config.curve.order.toNat :=
  ⟨⟨by decide +kernel, by decide +kernel, by decide +kernel, by decide +kernel, by decide +kernel⟩, by decide +kernel⟩

/-- ScalarEngineLaws: the machine's own constants, two canonical operands, their sum with the order below 2^256, and
registers for the four commands. -/
theorem witness_scalar_laws : Config.curve.Relations ∧ vX.toNat < Config.curve.order.toNat ∧
    vY.toNat < Config.curve.order.toNat ∧ vX.toNat + Config.curve.order.toNat < 2 ^ 256 ∧
    (3 : RegNum) ≠ 4 ∧ (2 : RegNum) ≠ 3 :=
  ⟨witness_curve.1, witness_curve.2, by decide +kernel, by decide +kernel, by decide, by decide⟩

/-- SignDependsOnlyOnItsInputs: two states that differ elsewhere. -/
theorem witness_same_inputs : ∃ s t : State,
    s.subseed = t.subseed ∧ s.pubkey = t.pubkey ∧ s.digest = t.digest ∧ s ≠ t :=
  ⟨{ zero with subseed := mockSubseed }, { zero with subseed := mockSubseed, cf := true }, rfl, rfl, rfl, by decide⟩

/-- NonCanonicalSignaturesAreRejected: each of its four causes, at the lowest bit that is one. -/
theorem witness_noncanonical :
    (mockPubkey.set 31 0x80#8)[Config.pkTagByte] &&& 0x80#8 ≠ 0#8 ∧ (mockSig.set 15 0x80#8)[15] &&& 0x80#8 ≠ 0#8 ∧
    (mockSig.set 62 0x40#8)[62] &&& 0xC0#8 ≠ 0#8 ∧ (mockSig.set 63 0x01#8)[63] ≠ 0#8 := by
  decide +kernel

/-- CommandsWriteOnlyTheirOwnState: a command that completes, and a register, a flag and a buffer it does not own. -/
theorem witness_frame : ∃ (i : Instr) (s t : State), exec i s = .next t ∧ destination i ≠ some (.w, 1) ∧
    destination i ≠ some (.f, 0) ∧ destination i ≠ some (.s, 0) ∧ writesCarry i = false ∧ i ≠ .sign ∧ i ≠ .verify ∧
    i.wellFormed = true :=
  ⟨.ctlt 0 1 2, zero, _, rfl, by decide, by decide, by decide, by decide, by decide, by decide, by decide⟩

/-- StepKeepsErrorRecord: a state with a true record and one with none, and a step from each. -/
theorem witness_error_record :
    (∃ s t : State, s.err = true ∧ errorRecordOk s = true ∧ errorRecordTrue s ∧ step s = .next t) ∧
    (∃ s t : State, s.err = false ∧ errorRecordOk s = true ∧ errorRecordTrue s ∧ step s = .next t) :=
  ⟨⟨{ zero with err := true, ecode := 3#8, ecmd := 0x13012C00#64, port := [.write 0x000 8 0x99000000#64] }, _, rfl,
      by decide, fun _ => ⟨.illegalCin, by decide, rfl⟩, rfl⟩,
    ⟨{ zero with port := [.write 0x000 8 0x99000000#64] }, _, rfl, by decide, nofun, rfl⟩⟩

/-- PoliteHostIsNeverStopped: moves at the two ends of the map, and the reset. -/
theorem witness_polite : politeHost { zero with port :=
    [.write 0x000 8 0xFFFFFFFFFFFFFFFF#64, .read 0x398 8, .write 0x398 8 1#64, .reset] } = true := by
  decide +kernel

/-- StepServesMovesInOrder. -/
theorem witness_move : ∃ (s t : State) (e : HostEvent) (rest : List HostEvent), s.port = e :: rest ∧ step s = .next t :=
  ⟨{ zero with port := [.write 0x040 8 1#64, .read 0x040 8] }, _, _, _, rfl, rfl⟩

/-- ResetClearsFlagAndStatus. -/
theorem witness_reset_move : ∃ (s : State) (rest : List HostEvent), s.port = .reset :: rest :=
  ⟨{ zero with cf := true, port := [.reset, .read 0x008 8] }, _, rfl⟩

/-- HostReadsReturnTheirWord: for any offset a state whose next move reads it; so for each clause. -/
theorem witness_reads : ∀ off : Nat, ∃ (s : State) (rest : List HostEvent), s.port = .read off 8 :: rest :=
  fun off => ⟨{ withS vX vY with port := [.read off 8] }, [], rfl⟩

/-- StatusReadsAndClears: its read, and writes of values with bit 0 set and clear. -/
theorem witness_status :
    (∃ (s : State) (rest : List HostEvent), s.port = .read 0x008 8 :: rest ∧ s.vok = true) ∧
    (∃ (s : State) (rest : List HostEvent), s.port = .write 0x008 8 1#64 :: rest ∧ (1#64).toNat % 2 = 1) ∧
    (∃ (s : State) (rest : List HostEvent), s.port = .write 0x008 8 0xFFFFFFFFFFFFFFFE#64 :: rest ∧
      (0xFFFFFFFFFFFFFFFE#64).toNat % 2 = 0) :=
  ⟨⟨{ zero with vok := true, port := [.read 0x008 8] }, [], rfl, rfl⟩,
    ⟨{ zero with port := [.write 0x008 8 1#64] }, [], rfl, by decide⟩,
    ⟨{ zero with port := [.write 0x008 8 0xFFFFFFFFFFFFFFFE#64] }, [], rfl, by decide⟩⟩

/-- DataWriteChangesOnlyItsWord: the last word of `SIG`, and another location. -/
theorem witness_data_write : ∃ (s : State) (rest : List HostEvent) (v : Word) (l m : Loc),
    isData l = true ∧ s.port = .write l.offset 8 v :: rest ∧ m ≠ l :=
  ⟨{ zero with port := [.write 0x2B8 8 5#64] }, [], 5#64, .sig 7, .sig 6, rfl, rfl, by decide⟩

/-- ReadOnlyWritesAreIgnored: `ECMD`, and the first and the last words of the two read-only ranges. -/
theorem witness_read_only : ∀ off ∈ [0x010, 0x300, 0x308, 0x320, 0x398], off % 8 = 0 ∧
    (off = 0x010 ∨ 0x300 ≤ off ∧ off ≤ 0x30F ∨ 0x320 ≤ off ∧ off ≤ 0x39F) ∧
    ∃ (s : State) (rest : List HostEvent), s.port = .write off 8 1#64 :: rest := by
  intro off h
  refine ⟨?_, ?_, { zero with port := [.write off 8 1#64] }, [], rfl⟩ <;> revert off <;> decide

/-- BadAccessesAreRefused: a wrong width, a wrong alignment, and the first and the last words of each gap. -/
theorem witness_bad_access : ∀ p ∈ [(0x040, 4), (0x041, 8), (0x018, 8), (0x038, 8), (0x260, 8), (0x278, 8), (0x2C0, 8),
    (0x2F8, 8), (0x310, 8), (0x318, 8), (0x3A0, 8), (0x3F8, 8)],
    (p.2 ≠ 8 ∨ p.1 % 8 ≠ 0 ∨ 0x018 ≤ p.1 ∧ p.1 ≤ 0x03F ∨ 0x260 ≤ p.1 ∧ p.1 ≤ 0x27F ∨ 0x2C0 ≤ p.1 ∧ p.1 ≤ 0x2FF ∨
      0x310 ≤ p.1 ∧ p.1 ≤ 0x31F ∨ 0x3A0 ≤ p.1) ∧
    (∃ (s : State) (rest : List HostEvent), s.port = .read p.1 p.2 :: rest) ∧
    ∃ (s : State) (rest : List HostEvent), s.port = .write p.1 p.2 1#64 :: rest := by
  intro p h
  refine ⟨?_, ⟨{ zero with port := [.read p.1 p.2] }, [], rfl⟩, { zero with port := [.write p.1 p.2 1#64] }, [], rfl⟩
  revert p
  decide

/-- BusAddressesReachTheWindow: the last offset of the window and the first address above it. -/
theorem witness_bus : 0x3FF < 0x400 ∧
    (Config.base + 0x400 < Config.base ∨ Config.base + 0x400 ≤ Config.base + 0x400) :=
  ⟨by decide, .inr (Nat.le_refl _)⟩

/-- PseudoInstructionsExpand, second part; HostDirectivesAreAccepted: the longest location, its words and its bytes. -/
theorem witness_asm : assemble "ADD" ["W0", "W1", "W2"] = some (.adc 0 1 2 0#2) ∧
    namedLocation "SIG" = some (0x280, 8) ∧ (List.replicate 8 (1#64 : Word)).length = 8 ∧
    (List.replicate 64 (1#8 : Byte)).length = 8 * 8 := by
  decide +kernel

/-! ### A group for SignedDigestsVerify: the integers modulo ORDER, with the mock hash and the mock encoding -/

/-- The points of the group. -/
abbrev Pt : Type := ZMod mockOrder

theorem mockOrder_ne_zero : mockOrder ≠ 0 := by decide +kernel

theorem pt_val_lt (t : Pt) : t.val < mockOrder := by
  have : NeZero mockOrder := ⟨mockOrder_ne_zero⟩
  exact ZMod.val_lt t

/-- The mock externals on the group. -/
def groupExternals : Externals Pt where
  hash := mockHash
  fixedBaseMul k := (k.toNat % mockOrder) • (1 : Pt)
  encode t := mockEncode t.val
  decode b := Option.map (fun t : Nat => (Nat.cast t : Pt)) (mockDecode b)
  doubleScalarMulVerify s h a :=
    if mockOrder ≤ s.toNat then none else some ((s.toNat % mockOrder) • (1 : Pt) - (h.toNat % mockOrder) • a)

theorem mockOrder_le : mockOrder ≤ 2 ^ 246 := by decide +kernel

theorem mockEncode_lt (t : Nat) (h : t < 2 ^ 246) : t % 2 ^ 127 + t / 2 ^ 127 * 2 ^ 128 < 2 ^ 247 := by omega

theorem mockDecode_mockEncode (t : Nat) (h : t < mockOrder) : mockDecode (mockEncode t) = some t := by
  have h246 : t < 2 ^ 246 := h.trans_le mockOrder_le
  have he := mockEncode_lt t h246
  have hb : leInt (mockEncode t).toList = t % 2 ^ 127 + t / 2 ^ 127 * 2 ^ 128 := leInt_leBytes _ _ (by omega)
  have ht : (t % 2 ^ 127 + t / 2 ^ 127 * 2 ^ 128) % 2 ^ 127 +
      (t % 2 ^ 127 + t / 2 ^ 127 * 2 ^ 128) / 2 ^ 128 * 2 ^ 127 = t := by omega
  simp only [mockDecode, hb, ht]
  rw [if_neg (by omega), if_neg (by omega)]

/-- A byte below 128 has its top bit clear. -/
theorem top_bit_clear (n : Nat) (h : n % 256 < 128) : BitVec.ofNat 8 n &&& 0x80#8 = 0#8 := by
  have key : ∀ k : Fin 128, BitVec.ofNat 8 k.val &&& 0x80#8 = 0#8 := by decide
  have hn : BitVec.ofNat 8 n = BitVec.ofNat 8 (n % 256) := by
    apply BitVec.eq_of_toNat_eq
    simp
  rw [hn]
  exact key ⟨n % 256, h⟩

theorem mockEncode_byte15 (t : Nat) : (mockEncode t)[15] &&& 0x80#8 = 0#8 := by
  rw [mockEncode, leBytes_getElem]
  exact top_bit_clear _ (by omega)

theorem mockEncode_byte31 (t : Nat) (h : t < 2 ^ 246) : (mockEncode t)[31] &&& 0x80#8 = 0#8 := by
  have he := mockEncode_lt t h
  rw [mockEncode, leBytes_getElem]
  exact top_bit_clear _ (by omega)

theorem groupExternals_decode_encode (t : Pt) : groupExternals.decode (groupExternals.encode t) = some t := by
  have : NeZero mockOrder := ⟨mockOrder_ne_zero⟩
  simp only [groupExternals, mockDecode_mockEncode _ (pt_val_lt t), Option.map_some, ZMod.natCast_zmod_val]

/-- SignedDigestsVerify: all its hypotheses together, in a group of ORDER points, with the subseed of section 4. -/
theorem witness_signed_digest : ∃ (Point : Type) (_ : AddCommGroup Point) (G : Point) (ext : Externals Point)
    (c : CurveParams) (tag : Fin 32) (subseed pk _md : Vector Byte 32),
    c.Relations ∧ (∀ T : Point, c.order.toNat • T = 0) ∧
    (∀ k : Scalar, ext.fixedBaseMul k = (k.toNat % c.order.toNat) • G) ∧
    (∀ T : Point, ext.decode (ext.encode T) = some T) ∧
    (∀ (s h : Scalar) (A : Point), s.toNat < c.order.toNat →
      ext.doubleScalarMulVerify s h A = some ((s.toNat % c.order.toNat) • G - (h.toNat % c.order.toNat) • A)) ∧
    (∀ T : Point, (ext.encode T)[15] &&& 0x80#8 = 0#8) ∧ pk[tag] &&& 0x80#8 = 0#8 ∧
    pk = ext.encode (leInt ((ext.hash subseed.toList 64).toList.take 32) • G) := by
  have : NeZero mockOrder := ⟨mockOrder_ne_zero⟩
  refine ⟨Pt, inferInstance, (1 : Pt), groupExternals, Config.curve, 31, mockSubseed,
    groupExternals.encode (leInt ((groupExternals.hash mockSubseed.toList 64).toList.take 32) • (1 : Pt)), mockDigest,
    witness_curve.1, ?_, fun _ => rfl,
    groupExternals_decode_encode, ?_, fun T => mockEncode_byte15 _, ?_, rfl⟩
  · intro T
    show mockOrder • T = 0
    rw [nsmul_eq_mul, ZMod.natCast_self, zero_mul]
  · intro s h A hs
    show (if mockOrder ≤ s.toNat then none else _) = _
    rw [if_neg (show ¬ mockOrder ≤ s.toNat from Nat.not_le.mpr hs)]
    rfl
  · exact mockEncode_byte31 _ ((pt_val_lt _).trans_le mockOrder_le)

end Sys2Proof.Tests
end

/-! PROOFS. The default curve constants of R7: their arithmetic relations, and `ORDER` a prime by Pocklington's
criterion, applied down a chain of four primes, each with the next as a large factor of its predecessor. -/

namespace Sys2Proof.CurveConstants

/-! ## Pocklington's criterion -/

/-- The image of `b` in `ZMod p` has order exactly `F`: its `F`-th power is 1, and no `F / q`-th power is. -/
theorem dvd_pred_of_isUnit_pow_sub_one {n p F : ℕ} [Fact p.Prime] (hpn : p ∣ n) (hF : 0 < F) (b : ZMod n)
    (hpow : b ^ F = 1) (hunit : ∀ q, q.Prime → q ∣ F → IsUnit (b ^ (F / q) - 1)) : F ∣ p - 1 := by
  let f : ZMod n →+* ZMod p := ZMod.castHom hpn (ZMod p)
  have hfpow : f b ^ F = 1 := by rw [← map_pow, hpow, map_one]
  have hfne : ∀ q, q.Prime → q ∣ F → f b ^ (F / q) ≠ 1 := by
    intro q hq hqF hone
    have hzero := (hunit q hq hqF).map f
    rw [map_sub, map_pow, map_one, hone, sub_self] at hzero
    exact not_isUnit_zero hzero
  have hord : orderOf (f b) = F := orderOf_eq_of_pow_and_pow_div_prime hF hfpow hfne
  have hb : f b ≠ 0 := by
    intro h0
    rw [h0, zero_pow hF.ne'] at hfpow
    exact zero_ne_one hfpow
  exact hord ▸ ZMod.orderOf_dvd_card_sub_one hb

/-- Where every prime divisor is 1 modulo `F`, the least one exceeds the square root. -/
theorem prime_of_forall_dvd_pred {n F : ℕ} (hn : 1 < n) (hlt : n < (F + 1) ^ 2)
    (h : ∀ p, p.Prime → p ∣ n → F ∣ p - 1) : n.Prime := by
  by_contra hnp
  have hp : n.minFac.Prime := Nat.minFac_prime hn.ne'
  have hp1 : 1 < n.minFac := hp.one_lt
  have hle : F ≤ n.minFac - 1 := Nat.le_of_dvd (Nat.sub_pos_of_lt hp1) (h _ hp n.minFac_dvd)
  have hsq : n.minFac ^ 2 ≤ n := Nat.minFac_sq_le_self (by omega) hnp
  have hFsq : (F + 1) ^ 2 ≤ n.minFac ^ 2 := Nat.pow_le_pow_left (by omega) 2
  omega

/-- Pocklington's criterion: `l` lists the primes of a factored part of `n - 1` that exceeds the square root of `n`. -/
theorem prime_of_pocklington {n : ℕ} (l : List ℕ) (hl : ∀ q ∈ l, q.Prime) (hdvd : l.prod ∣ n - 1) (hn : 1 < n)
    (hlt : n < (l.prod + 1) ^ 2) (a : ZMod n) (hpow : a ^ (n - 1) = 1)
    (hunit : ∀ q ∈ l, IsUnit (a ^ ((n - 1) / q) - 1)) : n.Prime := by
  obtain ⟨r, hr⟩ := hdvd
  have hF : 0 < l.prod := List.prod_pos fun q hq => (hl q hq).pos
  have hb : (a ^ r) ^ l.prod = 1 := by rw [← pow_mul, mul_comm, ← hr, hpow]
  refine prime_of_forall_dvd_pred hn hlt fun p hp hpn => ?_
  have : Fact p.Prime := ⟨hp⟩
  refine dvd_pred_of_isUnit_pow_sub_one hpn hF (a ^ r) hb fun q hq hqF => ?_
  have hql : q ∈ l := mem_list_primes_of_dvd_prod hq.prime (fun p hp => (hl p hp).prime) hqF
  have hexp : r * (l.prod / q) = (n - 1) / q := by rw [hr, mul_comm l.prod, Nat.mul_div_assoc _ hqF]
  rw [← pow_mul, hexp]
  exact hunit q hql

/-- The form in which `reduce_mod_char` leaves the unit condition of `prime_of_pocklington`. -/
theorem isUnit_ofNat_of_coprime {n c : ℕ} [c.AtLeastTwo] (h : c.Coprime n) : IsUnit (OfNat.ofNat c : ZMod n) := by
  rw [← Nat.cast_ofNat]
  exact (ZMod.isUnit_iff_coprime c n).2 h

/-! ## The chain of primes under `ORDER`, the base being 2 throughout -/

theorem prime_366671478348367 : Nat.Prime 366671478348367 := by
  refine prime_of_pocklington [31, 1576049] ?primes (by norm_num) (by norm_num) (by norm_num) 2 ?power ?units
  case primes => norm_num
  case power => reduce_mod_char
  case units =>
    rw [List.forall_mem_cons, List.forall_mem_singleton]
    reduce_mod_char
    exact ⟨isUnit_ofNat_of_coprime (by norm_num), isUnit_ofNat_of_coprime (by norm_num)⟩

theorem prime_29633655537158324207 : Nat.Prime 29633655537158324207 := by
  refine prime_of_pocklington [366671478348367] ?primes (by norm_num) (by norm_num) (by norm_num) 2 ?power ?units
  case primes => exact List.forall_mem_singleton.2 prime_366671478348367
  case power => reduce_mod_char
  case units =>
    rw [List.forall_mem_singleton]
    reduce_mod_char
    exact isUnit_ofNat_of_coprime (by norm_num)

/-- The factor `q` of `ORDER - 1` that O38 names. -/
theorem prime_largest_factor_of_order_pred : Nat.Prime 95178976488652476489556669482413803056485341 := by
  refine prime_of_pocklington [374093, 29633655537158324207] ?primes (by norm_num) (by norm_num) (by norm_num) 2
    ?power ?units
  case primes =>
    exact List.forall_mem_cons.2 ⟨by norm_num, List.forall_mem_singleton.2 prime_29633655537158324207⟩
  case power => reduce_mod_char
  case units =>
    rw [List.forall_mem_cons, List.forall_mem_singleton]
    reduce_mod_char
    exact ⟨isUnit_ofNat_of_coprime (by norm_num), isUnit_ofNat_of_coprime (by norm_num)⟩

/-! ## The constants of the machine -/

theorem curve_order_toNat : Config.curve.order.toNat =
    73846995687063900142583536357581573884798075859800097461294096333596429543 := by
  rfl

theorem curve_order_prime : Config.curve.order.toNat.Prime := by
  rw [curve_order_toNat]
  refine prime_of_pocklington [95178976488652476489556669482413803056485341] ?primes (by norm_num) (by norm_num)
    (by norm_num) 2 ?power ?units
  case primes => exact List.forall_mem_singleton.2 prime_largest_factor_of_order_pred
  case power => reduce_mod_char
  case units =>
    rw [List.forall_mem_singleton]
    reduce_mod_char
    exact isUnit_ofNat_of_coprime (by norm_num)

/-- Settles O37: each relation of R7 evaluated at the default digits. -/
theorem curveConstantsMeetTheirRelations : Obligations.CurveConstantsMeetTheirRelations where
  one_lt := by rw [curve_order_toNat]; norm_num
  odd := by rw [curve_order_toNat]
  le := by rw [curve_order_toNat]; norm_num
  rsq_eq := by decide +kernel
  ninv_eq := by decide +kernel

/-- Settles O38: Pocklington's criterion for `ORDER`, the large factor of `ORDER - 1` being itself certified by the
chain above. -/
theorem curveOrderIsPrime : Obligations.CurveOrderIsPrime :=
  ⟨curve_order_prime, curveConstantsMeetTheirRelations, curve_order_prime⟩

end Sys2Proof.CurveConstants

/-! PROOFS. The error record `ERR`, `ECODE`, `ECMD` (R28, R210, R211, R214): the changes a step can make to it, the
invariant it keeps, and `STATUS`, through which the host reads and clears it. -/

namespace Sys2Proof.Machine

/-! ## The error record on its own -/

/-- The three fields that a refusal writes and an acknowledgement clears (R28). -/
structure ErrorRecord where
  err : Bool
  ecode : Byte
  ecmd : Word

/-- The record while nothing has been refused since the last acknowledgement or reset (R214, R231). -/
def ErrorRecord.clear : ErrorRecord := ⟨false, 0#8, 0#64⟩

/-- The record of a refusal (R211). -/
def ErrorRecord.refusal (c : RefuseCode) (v : Word) : ErrorRecord := ⟨true, c.bits, v⟩

def State.errorRecord (s : State) : ErrorRecord := ⟨s.err, s.ecode, s.ecmd⟩

/-- A record is clear, or it is the record of a value that the decoder refuses. -/
inductive ErrorRecord.Sound : ErrorRecord → Prop where
  | clear : Sound .clear
  | refusal {c : RefuseCode} {v : Word} (refused : decodeCmd v = .refuse c) : Sound (.refusal c v)

/-- All that one move of the host can do to the record: a refusal is written only over a record with `ERR` 0 (R211). -/
inductive ErrorRecord.Change (r : ErrorRecord) : ErrorRecord → Prop where
  | kept : Change r r
  | cleared : Change r .clear
  | refused {c : RefuseCode} {v : Word} (first : r.err = false) (refused : decodeCmd v = .refuse c) :
      Change r (.refusal c v)

theorem ErrorRecord.Sound.of_change {r q : ErrorRecord} (hr : r.Sound) (h : r.Change q) : q.Sound := by
  cases h with
  | kept => exact hr
  | cleared => exact .clear
  | refused _ hd => exact .refusal hd

/-! ## The invariant in the terms of the statements -/

theorem errorRecordOk_of_clear {s : State} (h : s.errorRecord = .clear) : errorRecordOk s = true := by
  obtain ⟨herr, hcode, hcmd⟩ := ErrorRecord.mk.inj h
  simp [errorRecordOk, herr, hcode, hcmd]

theorem errorRecordOk_of_refusal {s : State} {c : RefuseCode} {v : Word} (h : s.errorRecord = .refusal c v) :
    errorRecordOk s = true := by
  obtain ⟨herr, hcode, -⟩ := ErrorRecord.mk.inj h
  cases c <;> simp [errorRecordOk, herr, hcode, RefuseCode.bits]

/-- The record is consistent and true exactly when it is clear or the record of a refused value. -/
theorem sound_errorRecord_iff (s : State) :
    s.errorRecord.Sound ↔ errorRecordOk s = true ∧ errorRecordTrue s := by
  constructor
  · intro h
    generalize hr : s.errorRecord = r at h
    cases h with
    | clear =>
      obtain ⟨herr, -, -⟩ := ErrorRecord.mk.inj hr
      exact ⟨errorRecordOk_of_clear hr, fun h1 => absurd h1 (by simp [herr])⟩
    | refusal hd =>
      obtain ⟨-, hcode, hcmd⟩ := ErrorRecord.mk.inj hr
      exact ⟨errorRecordOk_of_refusal hr, fun _ => ⟨_, hcmd ▸ hd, hcode⟩⟩
  · rintro ⟨hok, htrue⟩
    cases herr : s.err with
    | false =>
      obtain ⟨hcode, hcmd⟩ : s.ecode = 0#8 ∧ s.ecmd = 0#64 := by simpa [errorRecordOk, herr] using hok
      have hclear : s.errorRecord = .clear := by rw [State.errorRecord, herr, hcode, hcmd, ErrorRecord.clear]
      exact hclear ▸ .clear
    | true =>
      obtain ⟨c, hd, hcode⟩ := htrue herr
      have hrefusal : s.errorRecord = .refusal c s.ecmd := by rw [State.errorRecord, herr, hcode, ErrorRecord.refusal]
      exact hrefusal ▸ .refusal hd

/-! ## Commands leave the record alone -/

/-- What the decoder gives is well formed (R74, R77). -/
theorem wellFormed_of_decodeCmd {v : Word} {i : Instr} (h : decodeCmd v = .command i) : i.wellFormed = true := by
  unfold decodeCmd at h
  split at h
  · cases h
  · unfold decodeWord at h
    split at h
    · cases h
    · next r hfind =>
      obtain ⟨-, hcin, rfl⟩ := decodeRow_spec r _ i h
      rw [wellFormed_build r (List.mem_of_find?_eq_some hfind)]
      split
      · rfl
      · next hf => exact hcin hf
      · rfl
      · rfl

theorem carryIn_of_legalCin {cin : BitVec 2} (cf : Bool) (h : legalCin cin = true) : ∃ b, carryIn cin cf = some b := by
  cases hc : carryIn cin cf with
  | none => rw [(carryIn_eq_none_iff cin cf).mp hc] at h; cases h
  | some b => exact ⟨b, rfl⟩

section
variable (s : State)

@[simp] theorem writeW_errorRecord (i : RegNum) (v : Word) : (s.writeW i v).errorRecord = s.errorRecord := rfl
@[simp] theorem writeF_errorRecord (i : RegNum) (v : FieldWord) : (s.writeF i v).errorRecord = s.errorRecord := rfl
@[simp] theorem writeS_errorRecord (i : RegNum) (v : Scalar) : (s.writeS i v).errorRecord = s.errorRecord := rfl
@[simp] theorem writeCF_errorRecord (b : Bool) : (s.writeCF b).errorRecord = s.errorRecord := rfl
@[simp] theorem writeSig_errorRecord (b : Vector Byte 64) : (s.writeSig b).errorRecord = s.errorRecord := rfl
@[simp] theorem writeVOK_errorRecord (b : Bool) : (s.writeVOK b).errorRecord = s.errorRecord := rfl

end

@[simp] theorem writeFieldResult_errorRecord (s : State) (rd : RegNum) (c : Bool) (v : FieldWord) :
    (s.writeFieldResult rd c v).errorRecord = s.errorRecord := by
  obtain ⟨x, n, h⟩ := writeFieldResult_spec s rd c v
  rw [h]; rfl

/-- A well-formed command completes and never raises (R215). -/
theorem exec_keeps_errorRecord (i : Instr) (s : State) (h : i.wellFormed = true) :
    ∃ t, exec i s = .next t ∧ t.errorRecord = s.errorRecord := by
  cases i with
  | adc rd ra rb cin =>
    obtain ⟨b, hb⟩ := carryIn_of_legalCin s.cf h
    simp only [exec, execAdc, hb]
    exact ⟨_, rfl, by simp⟩
  | sbb rd ra rb cin =>
    obtain ⟨b, hb⟩ := carryIn_of_legalCin s.cf h
    simp only [exec, execSbb, hb]
    exact ⟨_, rfl, by simp⟩
  | fadd | fsub | fneg | fmul | fsqr | fhalf | fpow125 | finv =>
    exact ⟨_, rfl, writeFieldResult_errorRecord ..⟩
  | ctnz | ctz | ctlt => exact ⟨_, rfl, writeW_errorRecord ..⟩
  | fred => exact ⟨_, rfl, writeF_errorRecord ..⟩
  | saddm | ssubm | mmul | tomont | frommont | smodr | mkodd => exact ⟨_, rfl, writeS_errorRecord ..⟩
  | mpadd | mpsub => exact ⟨_, rfl, by rw [writeCF_errorRecord, writeS_errorRecord]⟩
  | sign => exact ⟨_, rfl, writeSig_errorRecord ..⟩
  | verify => exact ⟨_, rfl, writeVOK_errorRecord ..⟩

/-! ## What a move of the host does to the record -/

theorem raiseRefused_errorRecord_change (s : State) {c : RefuseCode} {v : Word} (hd : decodeCmd v = .refuse c) :
    s.errorRecord.Change (s.raiseRefused c v).errorRecord := by
  rw [State.raiseRefused]
  split
  · exact .kept
  · next herr => exact .refused (Bool.eq_false_iff.mpr herr) hd

theorem issueCommand_errorRecord_change {v : Word} {s t : State} (h : issueCommand v s = .next t) :
    s.errorRecord.Change t.errorRecord := by
  unfold issueCommand at h
  split at h
  · next i hd =>
    obtain ⟨u, hu, hrec⟩ := exec_keeps_errorRecord i s (wellFormed_of_decodeCmd hd)
    obtain rfl : u = t := Host.Outcome.next.inj (hu.symm.trans h)
    exact hrec ▸ .kept
  · next c hd =>
    cases h
    exact raiseRefused_errorRecord_change s hd

theorem writeStatus_odd (s : State) {v : Word} (h : v.toNat % 2 = 1) : s.writeStatus v = s.clearRefused := by
  have hbit : v.getLsbD 0 = true := by rw [← Bool.toNat_eq_one, getLsbD_zero_toNat, h]
  rw [State.writeStatus, if_pos hbit]

theorem writeStatus_even (s : State) {v : Word} (h : v.toNat % 2 = 0) : s.writeStatus v = s := by
  have hbit : v.getLsbD 0 = false := by rw [← Bool.toNat_eq_zero, getLsbD_zero_toNat, h]
  rw [State.writeStatus, if_neg (Bool.eq_false_iff.mp hbit)]

/-- Only the write of `STATUS` reaches the record (R53). -/
theorem writeLoc_errorRecord (s : State) (v : Word) (l : Loc) (h : l ≠ .status) :
    (s.writeLoc v l).errorRecord = s.errorRecord := by
  cases l with
  | status => exact absurd rfl h
  | w | f | s => simp [State.writeLoc]
  | _ => simp only [State.writeLoc, State.errorRecord]

theorem writeStatus_errorRecord_change (s : State) (v : Word) : s.errorRecord.Change (s.writeStatus v).errorRecord := by
  rcases Nat.mod_two_eq_zero_or_one v.toNat with h | h
  · rw [writeStatus_even s h]; exact .kept
  · rw [writeStatus_odd s h]; exact .cleared

theorem writeLoc_errorRecord_change (s : State) (v : Word) (l : Loc) :
    s.errorRecord.Change (s.writeLoc v l).errorRecord := by
  by_cases h : l = .status
  · subst h; exact writeStatus_errorRecord_change s v
  · rw [writeLoc_errorRecord s v l h]; exact .kept

theorem serveWrite_errorRecord_change {l : Loc} {v : Word} {s t : State} (h : serveWrite l v s = .next t) :
    s.errorRecord.Change t.errorRecord := by
  unfold serveWrite at h
  split at h
  · exact issueCommand_errorRecord_change h
  · cases h
    exact writeLoc_errorRecord_change s v l

/-- Whatever the host's next move is, the record is kept, cleared, or written by a first refusal (R211, R214, R231). -/
theorem step_errorRecord_change {s t : State} (h : step s = .next t) : s.errorRecord.Change t.errorRecord := by
  cases hp : s.port with
  | nil =>
    rw [step_idle s hp] at h
    cases h
    exact .kept
  | cons e rest =>
    cases e with
    | read off width =>
      cases ha : accessLoc off width with
      | none => rw [step_bad_read s off width rest hp ha] at h; cases h
      | some l =>
        obtain ⟨rfl, rfl⟩ := accessLoc_sound off width l ha
        rw [step_read s l rest hp] at h
        cases h
        exact .kept
    | write off width v =>
      cases ha : accessLoc off width with
      | none => rw [step_bad_write s off width v rest hp ha] at h; cases h
      | some l =>
        obtain ⟨rfl, rfl⟩ := accessLoc_sound off width l ha
        rw [step_write s l v rest hp] at h
        exact serveWrite_errorRecord_change (s := { s with port := rest, reply := none }) h
    | reset =>
      rw [step_reset s rest hp] at h
      cases h
      exact .cleared

/-- Settles O47: of the changes a step can make to the record, none leads from a sound record to an unsound one. -/
theorem stepKeepsErrorRecord : Obligations.StepKeepsErrorRecord := by
  intro s t hok htrue hstep
  have hs : s.errorRecord.Sound := (sound_errorRecord_iff s).mpr ⟨hok, htrue⟩
  exact (sound_errorRecord_iff t).mp (hs.of_change (step_errorRecord_change hstep))

/-! ## `STATUS` -/

/-- The four fields of `STATUS` fit in its low 16 bits, so its value is their sum (R28). -/
theorem status_toNat (s : State) :
    s.status.toNat = s.err.toNat + 2 * s.vok.toNat + 4 * s.cf.toNat + 2 ^ 8 * s.ecode.toNat := by
  have herr := Bool.toNat_le s.err
  have hvok := Bool.toNat_le s.vok
  have hcf := Bool.toNat_le s.cf
  have hcode := s.ecode.isLt
  rw [status_eq, BitVec.toNat_ofNat, Nat.mod_eq_of_lt (by omega)]

/-- A write of a location other than `CMD` completes (R53). -/
theorem step_write_ne_cmd (s : State) (l : Loc) (v : Word) (rest : List HostEvent)
    (h : s.port = .write l.offset 8 v :: rest) (hl : l ≠ .cmd) :
    step s = .next ({ s with port := rest, reply := none }.writeLoc v l) := by
  rw [step_write s l v rest h, serveWrite, if_neg hl]

theorem step_write_status (s : State) (v : Word) (rest : List HostEvent) (h : s.port = .write 0x008 8 v :: rest) :
    step s = .next ({ s with port := rest, reply := none }.writeStatus v) :=
  step_write_ne_cmd s .status v rest h (by decide)

/-- Settles O53: the read by the value of `STATUS`, the write by bit 0 of the value written. -/
theorem statusReadsAndClears : Obligations.StatusReadsAndClears := by
  intro s rest
  refine ⟨fun hread => ⟨s.status, step_read s .status rest hread, status_toNat s⟩, fun v hwrite => ⟨?odd, ?even⟩⟩
  case odd =>
    intro hv
    rw [step_write_status s v rest hwrite, writeStatus_odd _ hv, State.clearRefused]
  case even =>
    intro hv
    rw [step_write_status s v rest hwrite, writeStatus_even _ hv]

end Sys2Proof.Machine

/-! PROOFS. The host window (R50 to R58): what each of its locations answers, which accesses it accepts, and that a
step serves one move and keeps the others. -/

namespace Sys2Proof.Machine

/-! ## Every operation leaves the moves to come -/

@[simp] theorem writeFieldResult_port (s : State) (rd : RegNum) (c : Bool) (v : FieldWord) :
    (s.writeFieldResult rd c v).port = s.port := by
  obtain ⟨x, n, h⟩ := writeFieldResult_spec s rd c v
  rw [h]

@[simp] theorem raiseRefused_port (s : State) (c : RefuseCode) (v : Word) : (s.raiseRefused c v).port = s.port := by
  rw [raiseRefused_spec]

/-- Every command completes, the ill-formed ones by taking the refusal, and none reaches the host's moves (R58, R215). -/
theorem exec_keeps_port (i : Instr) (s : State) : ∃ t, exec i s = .next t ∧ t.port = s.port := by
  cases i with
  | adc _ _ _ cin | sbb _ _ _ cin =>
    simp only [exec, execAdc, execSbb]
    cases carryIn cin s.cf with
    | none => exact ⟨_, rfl, raiseRefused_port ..⟩
    | some b => exact ⟨_, rfl, by rw [writeCF_port, writeW_port]⟩
  | fadd | fsub | fneg | fmul | fsqr | fhalf | fpow125 | finv => exact ⟨_, rfl, writeFieldResult_port ..⟩
  | ctnz | ctz | ctlt => exact ⟨_, rfl, writeW_port ..⟩
  | fred => exact ⟨_, rfl, writeF_port ..⟩
  | saddm | ssubm | mmul | tomont | frommont | smodr | mkodd => exact ⟨_, rfl, writeS_port ..⟩
  | mpadd | mpsub => exact ⟨_, rfl, by rw [writeCF_port, writeS_port]⟩
  | sign => exact ⟨_, rfl, writeSig_port ..⟩
  | verify => exact ⟨_, rfl, writeVOK_port ..⟩

theorem issueCommand_keeps_port (v : Word) (s : State) : ∃ t, issueCommand v s = .next t ∧ t.port = s.port := by
  unfold issueCommand
  split
  · exact exec_keeps_port _ s
  · exact ⟨_, rfl, raiseRefused_port ..⟩

/-- No write of a location reaches the three fields that are the model's own. -/
theorem writeLoc_ownFields (s : State) (v : Word) (l : Loc) :
    (s.writeLoc v l).port = s.port ∧ (s.writeLoc v l).reply = s.reply ∧ (s.writeLoc v l).draws = s.draws := by
  cases l with
  | status =>
    rcases Nat.mod_two_eq_zero_or_one v.toNat with h | h
    · rw [State.writeLoc, writeStatus_even s h]; exact ⟨rfl, rfl, rfl⟩
    · rw [State.writeLoc, writeStatus_odd s h]; exact ⟨rfl, rfl, rfl⟩
  | w i => exact ⟨writeW_port .., writeW_reply .., writeW_draws ..⟩
  | f i j => exact ⟨writeF_port .., writeF_reply .., writeF_draws ..⟩
  | s i j => exact ⟨writeS_port .., writeS_reply .., writeS_draws ..⟩
  | _ => simp only [State.writeLoc, and_self]

/-! ## Accepted and refused moves -/

theorem step_of_acceptedMove (s : State) (e : HostEvent) (rest : List HostEvent) (hp : s.port = e :: rest)
    (he : acceptedMove e = true) : ∃ t, step s = .next t ∧ t.port = rest := by
  cases e with
  | read off width =>
    obtain ⟨l, hl⟩ := Option.isSome_iff_exists.mp he
    obtain ⟨rfl, rfl⟩ := accessLoc_sound off width l hl
    exact ⟨_, step_read s l rest hp, rfl⟩
  | write off width v =>
    obtain ⟨l, hl⟩ := Option.isSome_iff_exists.mp he
    obtain ⟨rfl, rfl⟩ := accessLoc_sound off width l hl
    by_cases hc : l = .cmd
    · subst hc
      rw [step_cmd s v rest hp]
      exact issueCommand_keeps_port v { s with port := rest, reply := none }
    · exact ⟨_, step_write_ne_cmd s l v rest hp hc, (writeLoc_ownFields _ v l).1⟩
  | reset => exact ⟨_, step_reset s rest hp, rfl⟩

theorem step_of_not_acceptedMove (s : State) (e : HostEvent) (rest : List HostEvent) (hp : s.port = e :: rest)
    (he : ¬ acceptedMove e = true) : ∃ r, step s = .refused r := by
  cases e with
  | read off width => exact ⟨_, step_bad_read s off width rest hp (Option.not_isSome_iff_eq_none.mp he)⟩
  | write off width v => exact ⟨_, step_bad_write s off width v rest hp (Option.not_isSome_iff_eq_none.mp he)⟩
  | reset => exact absurd rfl he

/-- Settles O49: the first move, being accepted, is served, and what remains is a tail of a polite host's moves. -/
theorem politeHostIsNeverStopped : Obligations.PoliteHostIsNeverStopped := by
  intro s hpolite
  cases hp : s.port with
  | nil => exact ⟨s, step_idle s hp, hpolite⟩
  | cons e rest =>
    obtain ⟨he, hrest⟩ : acceptedMove e = true ∧ rest.all acceptedMove = true := by
      simpa only [politeHost, hp, List.all_cons, Bool.and_eq_true] using hpolite
    obtain ⟨t, hstep, hport⟩ := step_of_acceptedMove s e rest hp he
    exact ⟨t, hstep, by rw [politeHost, hport, hrest]⟩

/-- Settles O50: a step that answers a next state has served an accepted move. -/
theorem stepServesMovesInOrder : Obligations.StepServesMovesInOrder := by
  intro s t e rest hp hstep
  by_cases he : acceptedMove e = true
  · obtain ⟨u, hu, hport⟩ := step_of_acceptedMove s e rest hp he
    obtain rfl : u = t := Host.Outcome.next.inj (hu.symm.trans hstep)
    exact hport
  · obtain ⟨r, hr⟩ := step_of_not_acceptedMove s e rest hp he
    cases hr.symm.trans hstep

/-- Every location is aligned and lies outside the gaps of the map (R51). -/
theorem offset_mapped (l : Loc) : l.offset % 8 = 0 ∧ (l.offset < 0x018 ∨ 0x040 ≤ l.offset ∧ l.offset < 0x260 ∨
    0x280 ≤ l.offset ∧ l.offset < 0x2C0 ∨ 0x300 ≤ l.offset ∧ l.offset < 0x310 ∨
    0x320 ≤ l.offset ∧ l.offset < 0x3A0) := by
  cases l with
  | cmd | status | ecmd => decide
  | _ => simp only [Loc.offset]; omega

/-- Settles O56: a location named by such an access would be misaligned or in a gap. -/
theorem badAccessesAreRefused : Obligations.BadAccessesAreRefused := by
  intro s rest off width v hbad
  have hnone : accessLoc off width = none := by
    rw [Option.eq_none_iff_forall_not_mem]
    intro l hl
    obtain ⟨rfl, rfl⟩ := accessLoc_sound off width l hl
    have hmapped := offset_mapped l
    omega
  exact ⟨fun hp => step_bad_read s off width rest hp hnone, fun hp => step_bad_write s off width v rest hp hnone⟩

/-! ## Reads -/

theorem wordOf_primeWord (j : Fin 2) : wordOf primeWord j = BitVec.ofNat 64 (Config.P / 2 ^ (64 * j.val)) := by
  apply BitVec.eq_of_toNat_eq
  rw [wordOf_toNat, primeWord_toNat, BitVec.toNat_ofNat]

theorem wordOf_constOne (j : Fin 4) : wordOf constOne j = if j.val = 0 then 1#64 else 0#64 := by
  revert j; decide

/-- Settles O52: `step_read` at every location; the words of `STATUS`, `CONST_P` and `CONST_ONE` are the computed ones. -/
theorem hostReadsReturnTheirWord : Obligations.HostReadsReturnTheirWord := by
  intro s rest returns
  have hread : ∀ l : Loc, returns l.offset (s.readLoc l) := fun l hp => step_read s l rest hp
  exact ⟨hread .cmd, hread .ecmd, status_eq s ▸ hread .status, fun i => hread (.w i), fun i j => hread (.f i j),
    fun i j => hread (.s i j), fun j => hread (.subseed j), fun j => hread (.pubkey j), fun j => hread (.digest j),
    fun j => hread (.sig j), fun j => wordOf_primeWord j ▸ hread (.constP j), fun j => hread (.constOrder j),
    fun j => hread (.constRsq j), fun j => hread (.constNinv j), fun j => wordOf_constOne j ▸ hread (.constOne j)⟩

/-! ## Writes -/

theorem ne_cmd_of_isData {l : Loc} (h : isData l = true) : l ≠ .cmd := by
  rintro rfl
  cases h

/-- Settles O54: the word written reads back, the others read as they did before the move was taken up. -/
theorem dataWriteChangesOnlyItsWord : Obligations.DataWriteChangesOnlyItsWord := by
  intro s rest v l hl hp
  refine ⟨_, step_write_ne_cmd s l v rest hp (ne_cmd_of_isData hl), readLoc_writeLoc_same _ v l hl, fun m hm => ?others,
    writeLoc_ownFields _ v l⟩
  case others => exact (readLoc_writeLoc_other _ v l m hl hm).trans (readLoc_takeMove s rest m)

/-- The aligned offsets of `ECMD` and of the constants name locations that no write changes (R28, R30, R51). -/
theorem exists_loc_ignoring_writes {off : Nat} (halign : off % 8 = 0)
    (hrange : off = 0x010 ∨ 0x300 ≤ off ∧ off ≤ 0x30F ∨ 0x320 ≤ off ∧ off ≤ 0x39F) :
    ∃ l : Loc, l.offset = off ∧ l ≠ .cmd ∧ ∀ (s : State) (v : Word), s.writeLoc v l = s := by
  obtain rfl | hP | horder | hrsq | hninv | hone : off = 0x010 ∨ 0x300 ≤ off ∧ off < 0x310 ∨
      0x320 ≤ off ∧ off < 0x340 ∨ 0x340 ≤ off ∧ off < 0x360 ∨ 0x360 ≤ off ∧ off < 0x380 ∨
      0x380 ≤ off ∧ off < 0x3A0 := by omega
  · exact ⟨.ecmd, rfl, nofun, fun _ _ => rfl⟩
  · exact ⟨.constP ⟨(off - 0x300) / 8, by omega⟩, by simp only [Loc.offset]; omega, nofun, fun _ _ => rfl⟩
  · exact ⟨.constOrder ⟨(off - 0x320) / 8, by omega⟩, by simp only [Loc.offset]; omega, nofun, fun _ _ => rfl⟩
  · exact ⟨.constRsq ⟨(off - 0x340) / 8, by omega⟩, by simp only [Loc.offset]; omega, nofun, fun _ _ => rfl⟩
  · exact ⟨.constNinv ⟨(off - 0x360) / 8, by omega⟩, by simp only [Loc.offset]; omega, nofun, fun _ _ => rfl⟩
  · exact ⟨.constOne ⟨(off - 0x380) / 8, by omega⟩, by simp only [Loc.offset]; omega, nofun, fun _ _ => rfl⟩

/-- Settles O55: such an offset names a read-only location, whose write leaves the state with the move consumed. -/
theorem readOnlyWritesAreIgnored : Obligations.ReadOnlyWritesAreIgnored := by
  intro s rest v off halign hrange hp
  obtain ⟨l, rfl, hcmd, hignores⟩ := exists_loc_ignoring_writes halign hrange
  rw [step_write_ne_cmd s l v rest hp hcmd, hignores]

/-! ## Bus addresses -/

theorem windowOffset_base_add {off : Nat} (h : off < 0x400) : windowOffset (Config.base + off) = some off := by
  rw [windowOffset, if_pos (by omega), Nat.add_sub_cancel_left]

theorem windowOffset_outside {addr : Nat} (h : addr < Config.base ∨ Config.base + 0x400 ≤ addr) :
    windowOffset addr = none := by
  rw [windowOffset, if_neg (by omega)]

/-- Settles O57: the offset of the address decides both accesses. -/
theorem busAddressesReachTheWindow : Obligations.BusAddressesReachTheWindow := by
  intro s width v
  refine ⟨fun off hoff => ?inside, fun addr haddr => ?outside⟩
  case inside => simp only [State.submitBusRead, State.submitBusWrite, windowOffset_base_add hoff, and_self]
  case outside => simp only [State.submitBusRead, State.submitBusWrite, windowOffset_outside haddr, and_self]

end Sys2Proof.Machine

/-! PROOFS. The encoding (R70 to R77): the fields of a packed word, the decoder as the table's one row for its opcode, the
round trip between commands and `CMD` values, and the order of the four refusal causes. -/

namespace Sys2Proof

/-! ## The fields of a packed word -/

theorem ofNat_regNum (r : RegNum) : BitVec.ofNat 32 r.val = (BitVec.ofFin r : BitVec 3).setWidth 32 := by
  apply BitVec.eq_of_toNat_eq
  simp

theorem regField_eq_iff (c : CmdWord) (lo : Nat) (r : RegNum) :
    regField c lo = r ↔ c.extractLsb' lo 3 = BitVec.ofFin r :=
  ⟨fun h => BitVec.toFin_inj.mp h, fun h => congrArg BitVec.toFin h⟩

/-- The fields do not overlap, so each holds what was packed into it (R71). -/
theorem fields_packWord (op : Byte) (d a b : RegNum) (c : BitVec 2) :
    opField (packWord op d a b c) = op ∧ regField (packWord op d a b c) 20 = d ∧
      regField (packWord op d a b c) 16 = a ∧ regField (packWord op d a b c) 12 = b ∧
      cinField (packWord op d a b c) = c := by
  simp only [regField_eq_iff, opField, cinField, packWord, opWord, ofNat_regNum]
  refine ⟨?op, ?rd, ?ra, ?rb, ?cin⟩
  all_goals
    apply BitVec.eq_of_getLsbD_eq
    intro i hi
    interval_cases i <;> simp

/-- The operands that a format does not have are zero (R72). -/
def Format.Fits : Format → RegNum → RegNum → RegNum → BitVec 2 → Prop
  | .r3, _, _, _, c => c = 0#2
  | .r3c, _, _, _, _ => True
  | .r2, _, _, b, c => b = 0 ∧ c = 0#2
  | .z, d, a, b, c => d = 0 ∧ a = 0 ∧ b = 0 ∧ c = 0#2

/-- Operands that fit a format leave its must-be-zero bits zero. -/
theorem packWord_and_mask {f : Format} {d a b : RegNum} {c : BitVec 2} (h : f.Fits d a b c) (op : Byte) :
    packWord op d a b c &&& f.mask = opWord op := by
  simp only [packWord, opWord, ofNat_regNum]
  apply BitVec.eq_of_getLsbD_eq
  intro i hi
  cases f with
  | r3 => obtain rfl := h; interval_cases i <;> simp [Format.mask]
  | r3c => interval_cases i <;> simp [Format.mask]
  | r2 => obtain ⟨rfl, rfl⟩ := h; interval_cases i <;> simp [Format.mask]
  | z => obtain ⟨rfl, rfl, rfl, rfl⟩ := h; interval_cases i <;> simp [Format.mask]

/-! ## The decoder is its table's row -/

/-- A search by a key that no two elements share finds the element that has it. -/
theorem find?_key_eq_some {α κ : Type} [BEq κ] [LawfulBEq κ] (key : α → κ) {l : List α}
    (hl : (l.map key).Nodup) {x : α} (hx : x ∈ l) : l.find? (fun y => key y == key x) = some x := by
  cases h : l.find? (fun y => key y == key x) with
  | none => exact absurd (beq_self_eq_true (key x)) (List.find?_eq_none.mp h x hx)
  | some y =>
    have hkey : key y = key x := beq_iff_eq.mp (List.find?_some (p := fun y => key y == key x) h)
    rw [List.inj_on_of_nodup_map hl (List.mem_of_find?_eq_some h) hx hkey]

theorem decodeWord_of_mem {r : OpRow} (hr : r ∈ opcodeTable) {c : CmdWord} (h : opField c = r.op) :
    decodeWord c = decodeRow r c := by
  have hops : (opcodeTable.map OpRow.op).Nodup := List.pairwise_map.mpr opcodeTable_pairwise
  rw [decodeWord, h, find?_key_eq_some OpRow.op hops hr]

theorem decodeWord_of_illegal {c : CmdWord} (h : opField c ∉ opcodeTable.map OpRow.op) :
    decodeWord c = .refuse .illegalOpcode := by
  have hnone : opcodeTable.find? (fun r => r.op == opField c) = none := by
    rw [List.find?_eq_none]
    exact fun r hr heq => h (List.mem_map.mpr ⟨r, hr, beq_iff_eq.mp heq⟩)
  rw [decodeWord, hnone]

theorem exists_row_of_decodeWord {c : CmdWord} {i : Instr} (h : decodeWord c = .command i) :
    ∃ r ∈ opcodeTable, decodeRow r c = .command i := by
  by_cases hop : opField c ∈ opcodeTable.map OpRow.op
  · obtain ⟨r, hr, hrop⟩ := List.mem_map.mp hop
    exact ⟨r, hr, decodeWord_of_mem hr hrop.symm ▸ h⟩
  · rw [decodeWord_of_illegal hop] at h
    cases h

/-- A `CMD` value with its upper half zero is its lower half extended (R70). -/
theorem setWidth_lowHalf {v : Word} (h : v.extractLsb' 32 32 = 0#32) : (v.extractLsb' 0 32).setWidth 64 = v := by
  have hlow : v.toNat >>> 32 = 0 := by
    have := congrArg BitVec.toNat h
    have := v.isLt
    simp only [BitVec.extractLsb'_toNat, BitVec.toNat_ofNat, Nat.shiftRight_eq_div_pow] at *
    omega
  apply BitVec.eq_of_toNat_eq
  simp only [Nat.shiftRight_eq_div_pow] at hlow
  simp
  omega

theorem decodeCmd_setWidth (c : CmdWord) : decodeCmd (c.setWidth 64) = decodeWord c := by
  have hhigh : (c.setWidth 64).extractLsb' 32 32 = 0#32 := by
    apply BitVec.eq_of_getLsbD_eq
    intro i hi
    simp
  have hlow : (c.setWidth 64).extractLsb' 0 32 = c := by
    apply BitVec.eq_of_getLsbD_eq
    intro i hi
    simp [hi]; omega
  rw [decodeCmd, if_neg (not_not.mpr hhigh), hlow]

theorem decodeCmd_of_high_zero {v : Word} (h : v.extractLsb' 32 32 = 0#32) :
    decodeCmd v = decodeWord (v.extractLsb' 0 32) := by
  rw [decodeCmd, if_neg (not_not.mpr h)]

theorem decodeCmd_of_high_ne_zero {v : Word} (h : v.extractLsb' 32 32 ≠ 0#32) :
    decodeCmd v = .refuse .reservedNonzero := by
  rw [decodeCmd, if_pos h]

/-! ## The round trip -/

/-- Operands that fit their row leave only the test of `cin` (R74, R76). -/
theorem decodeCmd_packWord {r : OpRow} (hr : r ∈ opcodeTable) {d a b : RegNum} {c : BitVec 2}
    (hfit : r.format.Fits d a b c) : decodeCmd ((packWord r.op d a b c).setWidth 64) =
      if r.format = .r3c ∧ legalCin c = false then .refuse .illegalCin else .command (r.build d a b c) := by
  obtain ⟨hop, hrd, hra, hrb, hcin⟩ := fields_packWord r.op d a b c
  rw [decodeCmd_setWidth, decodeWord_of_mem hr hop, decodeRow, if_neg (not_not.mpr (packWord_and_mask hfit r.op)), hrd,
    hra, hrb, hcin]

/-- Every command is what its row of the map makes of operands that fit it, and its word packs them (R75). -/
theorem exists_row (i : Instr) : ∃ r ∈ opcodeTable, ∃ d a b c, r.format.Fits d a b c ∧ r.build d a b c = i ∧
    encode i = packWord r.op d a b c := by
  cases i with
  | ctnz d a => exact ⟨opcodeTable[0], List.getElem_mem _, d, a, 0, 0, ⟨rfl, rfl⟩, rfl, rfl⟩
  | ctz d a => exact ⟨opcodeTable[1], List.getElem_mem _, d, a, 0, 0, ⟨rfl, rfl⟩, rfl, rfl⟩
  | ctlt d a b => exact ⟨opcodeTable[2], List.getElem_mem _, d, a, b, 0, rfl, rfl, rfl⟩
  | adc d a b c => exact ⟨opcodeTable[3], List.getElem_mem _, d, a, b, c, trivial, rfl, rfl⟩
  | sbb d a b c => exact ⟨opcodeTable[4], List.getElem_mem _, d, a, b, c, trivial, rfl, rfl⟩
  | fred d a => exact ⟨opcodeTable[5], List.getElem_mem _, d, a, 0, 0, ⟨rfl, rfl⟩, rfl, rfl⟩
  | fadd d a b => exact ⟨opcodeTable[6], List.getElem_mem _, d, a, b, 0, rfl, rfl, rfl⟩
  | fsub d a b => exact ⟨opcodeTable[7], List.getElem_mem _, d, a, b, 0, rfl, rfl, rfl⟩
  | fneg d a => exact ⟨opcodeTable[8], List.getElem_mem _, d, a, 0, 0, ⟨rfl, rfl⟩, rfl, rfl⟩
  | fmul d a b => exact ⟨opcodeTable[9], List.getElem_mem _, d, a, b, 0, rfl, rfl, rfl⟩
  | fsqr d a => exact ⟨opcodeTable[10], List.getElem_mem _, d, a, 0, 0, ⟨rfl, rfl⟩, rfl, rfl⟩
  | fhalf d a => exact ⟨opcodeTable[11], List.getElem_mem _, d, a, 0, 0, ⟨rfl, rfl⟩, rfl, rfl⟩
  | fpow125 d a => exact ⟨opcodeTable[12], List.getElem_mem _, d, a, 0, 0, ⟨rfl, rfl⟩, rfl, rfl⟩
  | finv d a => exact ⟨opcodeTable[13], List.getElem_mem _, d, a, 0, 0, ⟨rfl, rfl⟩, rfl, rfl⟩
  | mpadd d a b => exact ⟨opcodeTable[14], List.getElem_mem _, d, a, b, 0, rfl, rfl, rfl⟩
  | mpsub d a b => exact ⟨opcodeTable[15], List.getElem_mem _, d, a, b, 0, rfl, rfl, rfl⟩
  | saddm d a b => exact ⟨opcodeTable[16], List.getElem_mem _, d, a, b, 0, rfl, rfl, rfl⟩
  | ssubm d a b => exact ⟨opcodeTable[17], List.getElem_mem _, d, a, b, 0, rfl, rfl, rfl⟩
  | mmul d a b => exact ⟨opcodeTable[18], List.getElem_mem _, d, a, b, 0, rfl, rfl, rfl⟩
  | tomont d a => exact ⟨opcodeTable[19], List.getElem_mem _, d, a, 0, 0, ⟨rfl, rfl⟩, rfl, rfl⟩
  | frommont d a => exact ⟨opcodeTable[20], List.getElem_mem _, d, a, 0, 0, ⟨rfl, rfl⟩, rfl, rfl⟩
  | smodr d a => exact ⟨opcodeTable[21], List.getElem_mem _, d, a, 0, 0, ⟨rfl, rfl⟩, rfl, rfl⟩
  | mkodd d a => exact ⟨opcodeTable[22], List.getElem_mem _, d, a, 0, 0, ⟨rfl, rfl⟩, rfl, rfl⟩
  | sign => exact ⟨opcodeTable[23], List.getElem_mem _, 0, 0, 0, 0, ⟨rfl, rfl, rfl, rfl⟩, rfl, rfl⟩
  | verify => exact ⟨opcodeTable[24], List.getElem_mem _, 0, 0, 0, 0, ⟨rfl, rfl, rfl, rfl⟩, rfl, rfl⟩

/-- Settles O4: the word of a command packs operands that fit its row, and a well-formed one has a legal `cin`. -/
theorem decodeOfEncode : Obligations.DecodeOfEncode := by
  intro i hwf
  obtain ⟨r, hr, d, a, b, c, hfit, rfl, hword⟩ := exists_row i
  have hcin : ¬ (r.format = .r3c ∧ legalCin c = false) := by
    rintro ⟨hf, hc⟩
    simp [wellFormed_build r hr, hf, hc] at hwf
  rw [cmdValue, hword, decodeCmd_packWord hr hfit, if_neg hcin]

/-- A word that meets its row's tests is the word of the command it decodes to (R72, R75). -/
theorem encode_of_decodeRow {r : OpRow} (hr : r ∈ opcodeTable) {c : CmdWord} {i : Instr}
    (h : decodeRow r c = .command i) : encode i = c := by
  obtain ⟨hmask, -, rfl⟩ := decodeRow_spec r c i h
  rw [encode_build r hr]
  split
  · next hf => rw [hf] at hmask; exact packWord_fields_r3 c _ hmask
  · next hf => rw [hf] at hmask; exact packWord_fields_r3c c _ hmask
  · next hf => rw [hf] at hmask; exact packWord_fields_r2 c _ hmask
  · next hf => rw [hf] at hmask; exact packWord_fields_z c _ hmask

/-- Settles O5: an accepted value has a zero upper half, and its lower half is the word of its command. -/
theorem encodeOfDecode : Obligations.EncodeOfDecode := by
  intro v i h
  refine ⟨?value, Machine.wellFormed_of_decodeCmd h⟩
  by_cases hhigh : v.extractLsb' 32 32 = 0#32
  · rw [decodeCmd_of_high_zero hhigh] at h
    obtain ⟨r, hr, hrow⟩ := exists_row_of_decodeWord h
    rw [cmdValue, encode_of_decodeRow hr hrow, setWidth_lowHalf hhigh]
  · rw [decodeCmd_of_high_ne_zero hhigh] at h
    cases h

/-! ## The refusal causes -/

/-- The must-be-zero bits of a format, as bits of a `CMD` value (R72). -/
def Format.reserved (f : Format) : Word := (f.mask &&& 0x00FFFFFF#32).setWidth 64

/-- The must-be-zero bits by opcode, as R72 and R75 give them. -/
def mustBeZero (op : Byte) : Word :=
  if op = 0x13#8 ∨ op = 0x14#8 then 0x008883FF#64
  else if op ∈ [0x12#8, 0x21#8, 0x22#8, 0x24#8, 0x30#8, 0x31#8, 0x32#8, 0x33#8, 0x34#8] then 0x00888FFF#64
  else if op = 0x40#8 ∨ op = 0x41#8 then 0x00FFFFFF#64
  else 0x0088FFFF#64

theorem reserved_eq_mustBeZero : ∀ r ∈ opcodeTable, r.format.reserved = mustBeZero r.op := by decide

/-- The opcodes of format `R3C` are those of ADC and SBB (R75). -/
theorem format_eq_r3c_iff : ∀ r ∈ opcodeTable, r.format = .r3c ↔ r.op = 0x13#8 ∨ r.op = 0x14#8 := by decide

theorem opField_lowHalf (v : Word) : opField (v.extractLsb' 0 32) = v.extractLsb' 24 8 := by
  apply BitVec.eq_of_getLsbD_eq
  intro i hi
  interval_cases i <;> simp [opField]

theorem cinField_lowHalf (v : Word) : cinField (v.extractLsb' 0 32) = v.extractLsb' 10 2 := by
  apply BitVec.eq_of_getLsbD_eq
  intro i hi
  interval_cases i <;> simp [cinField]

theorem and_eq_and_iff (c m n : CmdWord) : c &&& m = c &&& n ↔ c &&& (m ^^^ n) = 0#32 := by
  have hxor : c &&& (m ^^^ n) = (c &&& m) ^^^ (c &&& n) := by ext i hi; simp [Bool.and_xor_distrib_left]
  rw [hxor, BitVec.xor_eq_zero_iff]

theorem and_setWidth_eq_zero_iff (v : Word) (m : CmdWord) :
    v &&& m.setWidth 64 = 0#64 ↔ v.extractLsb' 0 32 &&& m = 0#32 := by
  have hlow : v &&& m.setWidth 64 = (v.extractLsb' 0 32 &&& m).setWidth 64 := by
    apply BitVec.eq_of_getLsbD_eq
    intro i hi
    by_cases h : i < 32
    · simp [h, hi]
    · simp [h, BitVec.getLsbD_of_ge m i (by omega)]
  rw [hlow, ← BitVec.toNat_inj, BitVec.toNat_setWidth_of_le (by decide), ← BitVec.toNat_inj]
  rfl

/-- Every mask holds the `op` bits, so a masked word equals its opcode exactly when its other masked bits are zero. -/
theorem and_mask_eq_opWord_iff (f : Format) (v : Word) :
    v.extractLsb' 0 32 &&& f.mask = opWord (v.extractLsb' 24 8) ↔ v &&& f.reserved = 0#64 := by
  have hxor : f.mask ^^^ 0xFF000000#32 = f.mask &&& 0x00FFFFFF#32 := by cases f <;> decide
  rw [← opField_lowHalf, opWord_opField, and_eq_and_iff, hxor, Format.reserved, and_setWidth_eq_zero_iff]

/-- The tests of R76 on a row, in terms of the `CMD` value whose lower half the word is. -/
theorem decodeCmd_of_legal {v : Word} (hhigh : v.extractLsb' 32 32 = 0#32) {r : OpRow} (hr : r ∈ opcodeTable)
    (hop : r.op = v.extractLsb' 24 8) : decodeCmd v =
      if v &&& mustBeZero r.op ≠ 0#64 then .refuse .reservedNonzero
      else if (r.op = 0x13#8 ∨ r.op = 0x14#8) ∧ v.extractLsb' 10 2 = 3#2 then .refuse .illegalCin
      else .command (r.build (regField (v.extractLsb' 0 32) 20) (regField (v.extractLsb' 0 32) 16)
        (regField (v.extractLsb' 0 32) 12) (v.extractLsb' 10 2)) := by
  have hcin : legalCin (v.extractLsb' 10 2) = false ↔ v.extractLsb' 10 2 = 3#2 := by simp [legalCin]
  rw [decodeCmd_of_high_zero hhigh, decodeWord_of_mem hr ((opField_lowHalf v).trans hop.symm), decodeRow,
    cinField_lowHalf]
  simp only [ne_eq, hop ▸ and_mask_eq_opWord_iff r.format v, reserved_eq_mustBeZero r hr, format_eq_r3c_iff r hr, hcin]

/-- Settles O3: the table holds the 25 opcodes, and `decodeCmd_of_legal` gives its row's tests in their order. -/
theorem refusalCausesInPriorityOrder : Obligations.RefusalCausesInPriorityOrder := by
  intro v hi op legal withCin _
  have hrow : legal → ∃ r ∈ opcodeTable, r.op = op := List.mem_map (f := OpRow.op) (l := opcodeTable).mp
  have hcinLegal : withCin → legal := by rintro (h | h) <;> simp [legal, h]
  refine ⟨⟨rfl, rfl, rfl⟩, decodeCmd_of_high_ne_zero, ?opcode, ?reserved, ?cin, ?command⟩
  case opcode =>
    intro hhigh hillegal
    rw [decodeCmd_of_high_zero hhigh, decodeWord_of_illegal]
    rwa [opField_lowHalf]
  case reserved =>
    intro hhigh hlegal (hbits : v &&& mustBeZero op ≠ 0#64)
    obtain ⟨r, hr, hop⟩ := hrow hlegal
    rw [decodeCmd_of_legal hhigh hr hop, hop, if_pos hbits]
  case cin =>
    intro hhigh (hbits : v &&& mustBeZero op = 0#64) hwith hcin
    obtain ⟨r, hr, hop⟩ := hrow (hcinLegal hwith)
    rw [decodeCmd_of_legal hhigh hr hop, hop, if_neg (not_not.mpr hbits), if_pos ⟨hwith, hcin⟩]
  case command =>
    intro hhigh hlegal (hbits : v &&& mustBeZero op = 0#64) hcin
    obtain ⟨r, hr, hop⟩ := hrow hlegal
    rw [decodeCmd_of_legal hhigh hr hop, hop, if_neg (not_not.mpr hbits), if_neg hcin]
    exact ⟨_, rfl⟩

/-! ## Issuing a command -/

/-- Settles O1: a `CMD` write is served by issuing its value. -/
theorem stepRunsDecodedCommand : Obligations.StepRunsDecodedCommand := by
  intro s v rest i hport hdecode
  refine ⟨Machine.wellFormed_of_decodeCmd hdecode, ?_⟩
  rw [Machine.step_cmd s v rest hport, Machine.issueCommand, hdecode]

/-- Settles O6: each word evaluates to its command. -/
theorem sampleWordsDecode : Obligations.SampleWordsDecode := by
  refine ⟨?_, ?_, ?_, ?_, ?_, ?_⟩ <;> decide

/-- A `cin` of 3 selects no carry, so ADC and SBB take the refusal (R74; log 12). -/
theorem carryIn_three (cf : Bool) : Machine.carryIn 3#2 cf = none := (Machine.carryIn_eq_none_iff 3#2 cf).mpr rfl

/-- Settles O7: the rows of ADC and SBB stop at the `cin` test, and so does the meaning of the ill-formed term. -/
theorem cinThreeIsRefused : Obligations.CinThreeIsRefused := by
  intro s rd ra rb record
  refine ⟨?adcWord, ?sbbWord, ?adcTerm, ?sbbTerm⟩
  case adcWord => exact decodeCmd_packWord (r := opcodeTable[3]) (List.getElem_mem _) trivial
  case sbbWord => exact decodeCmd_packWord (r := opcodeTable[4]) (List.getElem_mem _) trivial
  case adcTerm =>
    simp only [Machine.exec, Machine.execAdc, carryIn_three, Machine.raiseRefused_spec]
    rfl
  case sbbTerm =>
    simp only [Machine.exec, Machine.execSbb, carryIn_three, Machine.raiseRefused_spec]
    rfl

end Sys2Proof

/-! PROOFS. What a command leaves alone (R25, R26, R78, R215): the six kinds of change that `exec` can make to the state,
and the frame read off each. -/

namespace Sys2Proof.Machine

/-- All that a command can do to the state: write its destination, and `CF` where it is one of the commands of R25, or
`SIG`, or `VOK`; a field command may also draw (R120), and an ill-formed term records its refusal (log 12). -/
inductive Effect (i : Instr) (s : State) : State → Prop where
  | wordResult {d : RegNum} (x : Word) {b : Bool} (dest : destination i = some (.w, d))
      (carry : writesCarry i = false → b = s.cf) : Effect i s { s with wreg := s.wreg.set d x, cf := b }
  | fieldResult {d : RegNum} (x : FieldWord) (n : Nat) (dest : destination i = some (.f, d)) :
      Effect i s { s with freg := s.freg.set d x, draws := n }
  | scalarResult {d : RegNum} (x : Scalar) {b : Bool} (dest : destination i = some (.s, d))
      (carry : writesCarry i = false → b = s.cf) : Effect i s { s with sreg := s.sreg.set d x, cf := b }
  | signature (x : Vector Byte 64) (isSign : i = .sign) : Effect i s { s with sig := x }
  | verdict (b : Bool) (isVerify : i = .verify) : Effect i s { s with vok := b }
  | refusal (e : Bool) (c : Byte) (v : Word) (illFormed : i.wellFormed = false) :
      Effect i s { s with err := e, ecode := c, ecmd := v }

theorem effect_writeFieldResult {i : Instr} {d : RegNum} (h : destination i = some (.f, d)) (s : State) (c : Bool)
    (v : FieldWord) : Effect i s (s.writeFieldResult d c v) := by
  obtain ⟨x, n, hx⟩ := writeFieldResult_spec s d c v
  exact hx ▸ .fieldResult x n h

theorem effect_raiseRefused {i : Instr} (h : i.wellFormed = false) (s : State) (c : RefuseCode) (v : Word) :
    Effect i s (s.raiseRefused c v) := by
  rw [raiseRefused_spec]
  exact .refusal _ _ _ h

/-- Every command completes with one of these effects (R78, R215). -/
theorem exec_effect (i : Instr) (s : State) : ∃ t, exec i s = .next t ∧ Effect i s t := by
  cases i with
  | ctnz | ctz | ctlt => exact ⟨_, rfl, .wordResult _ rfl fun _ => rfl⟩
  | adc _ _ _ cin | sbb _ _ _ cin =>
    simp only [exec, execAdc, execSbb]
    cases hc : carryIn cin s.cf with
    | none =>
      refine ⟨_, rfl, effect_raiseRefused ?_ ..⟩
      exact (carryIn_eq_none_iff cin s.cf).mp hc
    | some b => exact ⟨_, rfl, .wordResult _ rfl nofun⟩
  | fred => exact ⟨_, rfl, .fieldResult _ s.draws rfl⟩
  | fadd | fsub | fneg | fmul | fsqr | fhalf | fpow125 | finv => exact ⟨_, rfl, effect_writeFieldResult rfl ..⟩
  | mpadd | mpsub => exact ⟨_, rfl, .scalarResult _ rfl nofun⟩
  | saddm | ssubm | mmul | tomont | frommont | smodr | mkodd => exact ⟨_, rfl, .scalarResult _ rfl fun _ => rfl⟩
  | sign => exact ⟨_, rfl, .signature _ rfl⟩
  | verify => exact ⟨_, rfl, .verdict _ rfl⟩

theorem getElem_set_of_ne {α : Type} (regs : Vector α 8) {d r : RegNum} (x : α) (h : d ≠ r) :
    (regs.set d x)[r] = regs[r] :=
  Vector.getElem_set_ne d.isLt r.isLt (Fin.val_ne_of_ne h)

/-- Settles O45: each effect changes only what the command owns. -/
theorem commandsWriteOnlyTheirOwnState : Obligations.CommandsWriteOnlyTheirOwnState := by
  intro i s t hexec
  obtain ⟨u, hu, heffect⟩ := exec_effect i s
  obtain rfl : u = t := Host.Outcome.next.inj (hu.symm.trans hexec)
  cases heffect with
  | wordResult x dest carry =>
    have hregs : ∀ r, destination i ≠ some (.w, r) → (s.wreg.set _ x)[r] = s.wreg[r] := fun r hr =>
      getElem_set_of_ne s.wreg x fun hd => hr (hd ▸ dest)
    simpa using ⟨hregs, carry⟩
  | fieldResult x n dest =>
    have hregs : ∀ r, destination i ≠ some (.f, r) → (s.freg.set _ x)[r] = s.freg[r] := fun r hr =>
      getElem_set_of_ne s.freg x fun hd => hr (hd ▸ dest)
    simpa using hregs
  | scalarResult x dest carry =>
    have hregs : ∀ r, destination i ≠ some (.s, r) → (s.sreg.set _ x)[r] = s.sreg[r] := fun r hr =>
      getElem_set_of_ne s.sreg x fun hd => hr (hd ▸ dest)
    simpa using ⟨hregs, carry⟩
  | signature x isSign => simp [isSign]
  | verdict b isVerify => simp [isVerify]
  | refusal e c v illFormed => simp [illFormed]

end Sys2Proof.Machine

/-! PROOFS. The assembler (R79, R81) and the host directives (R80): a name selects its one row, operands read back as they
are written, and the moves of a directive are one for each word of its location. -/

namespace Sys2Proof.Machine

/-! ## Mnemonics -/

theorem mem_of_assemble {name : String} {ops : List String} {i : Instr} (h : assemble name ops = some i) :
    ∃ row ∈ assemblers, row.1 = name ∧ row.2 ops = some i := by
  obtain ⟨row, hfind, hrow⟩ := Option.bind_eq_some_iff.mp h
  have hname : (row.1 == name) = true := List.find?_some (p := fun r : _ × _ => r.1 == name) hfind
  exact ⟨row, List.mem_of_find?_eq_some hfind, beq_iff_eq.mp hname, hrow⟩

/-! ## Operands -/

theorem regText_injective (file : String) : Function.Injective (regText file) := by
  intro i j h
  have hdigit : #v["0", "1", "2", "3", "4", "5", "6", "7"][i] = #v["0", "1", "2", "3", "4", "5", "6", "7"][j] := by
    simpa only [regText, String.append_right_inj] using h
  clear h
  revert i j
  decide

theorem parseReg_regText (file : String) (i : RegNum) : parseReg file (regText file i) = some i := by
  have htexts : (([0, 1, 2, 3, 4, 5, 6, 7] : List RegNum).map (regText file)).Nodup :=
    List.Nodup.map (regText_injective file) (by decide)
  have hi : ∀ j : RegNum, j ∈ ([0, 1, 2, 3, 4, 5, 6, 7] : List RegNum) := by decide
  exact find?_key_eq_some (regText file) htexts (hi i)

theorem parseCin_of_cinText {c : BitVec 2} {t : String} (h : cinText c = some t) : parseCin t = some c := by
  have hall : ∀ c, ∀ t ∈ cinText c, parseCin t = some c := by decide
  exact hall c t h

theorem parse2_regText (file : String) (build : RegNum → RegNum → Instr) (d a : RegNum) :
    parse2 file build [regText file d, regText file a] = some (build d a) := by
  simp only [parse2, parseReg_regText]
  rfl

theorem parse3_regText (file : String) (build : RegNum → RegNum → RegNum → Instr) (d a b : RegNum) :
    parse3 file build [regText file d, regText file a, regText file b] = some (build d a b) := by
  simp only [parse3, parseReg_regText]
  rfl

theorem parse3c_regText (file : String) (build : RegNum → RegNum → RegNum → BitVec 2 → Instr) (d a b : RegNum)
    {c : BitVec 2} {t : String} (h : cinText c = some t) :
    parse3c file build [regText file d, regText file a, regText file b, t] = some (build d a b c) := by
  simp only [parse3c, parseReg_regText, parseCin_of_cinText h]
  rfl

/-- Only the ill-formed selector has no text (R74, R79). -/
theorem exists_cinText {c : BitVec 2} (h : legalCin c = true) : ∃ t, cinText c = some t := by
  rw [← Option.isSome_iff_exists]
  revert c
  decide


/-- Settles O58: the row of a mnemonic reads as many operands of the same file as its command is written with. -/
theorem assemblerReadsItsOwnText : Obligations.AssemblerReadsItsOwnText := by
  intro i hwf
  cases i with
  | ctnz | ctz | fred | fneg | fsqr | fhalf | fpow125 | finv | tomont | frommont | smodr | mkodd =>
    exact ⟨_, rfl, parse2_regText ..⟩
  | ctlt | fadd | fsub | fmul | mpadd | mpsub | saddm | ssubm | mmul => exact ⟨_, rfl, parse3_regText ..⟩
  | adc d a b cin | sbb d a b cin =>
    obtain ⟨t, ht⟩ := exists_cinText hwf
    refine ⟨[regText "W" d, regText "W" a, regText "W" b, t], ?_, parse3c_regText _ _ _ _ _ ht⟩
    rw [operandTexts, ht, Option.map_some]
  | sign | verify => exact ⟨_, rfl, rfl⟩

/-! ## Pseudo-instructions -/

/-- A row of the assembler whose mnemonic is that of every command it gives. -/
def NamesItsCommands (row : String × (List String → Option Instr)) : Prop :=
  ∀ ops i, row.2 ops = some i → row.1 = mnemonic i

theorem parse2_names {file name : String} {build : RegNum → RegNum → Instr}
    (h : ∀ d a, mnemonic (build d a) = name := by intros; rfl) : NamesItsCommands (name, parse2 file build) := by
  intro ops i hi
  simp only [parse2] at hi
  split at hi
  · simp only [bind, Option.bind_eq_some_iff, Option.pure_def, Option.some.injEq] at hi
    obtain ⟨d, -, a, -, rfl⟩ := hi
    exact (h d a).symm
  · cases hi

theorem parse3_names {file name : String} {build : RegNum → RegNum → RegNum → Instr}
    (h : ∀ d a b, mnemonic (build d a b) = name := by intros; rfl) : NamesItsCommands (name, parse3 file build) := by
  intro ops i hi
  simp only [parse3] at hi
  split at hi
  · simp only [bind, Option.bind_eq_some_iff, Option.pure_def, Option.some.injEq] at hi
    obtain ⟨d, -, a, -, b, -, rfl⟩ := hi
    exact (h d a b).symm
  · cases hi

theorem parse3c_names {file name : String} {build : RegNum → RegNum → RegNum → BitVec 2 → Instr}
    (h : ∀ d a b c, mnemonic (build d a b c) = name := by intros; rfl) :
    NamesItsCommands (name, parse3c file build) := by
  intro ops i hi
  simp only [parse3c] at hi
  split at hi
  · simp only [bind, Option.bind_eq_some_iff, Option.pure_def, Option.some.injEq] at hi
    obtain ⟨d, -, a, -, b, -, c, -, rfl⟩ := hi
    exact (h d a b c).symm
  · cases hi

theorem parse0_names (i : Instr) : NamesItsCommands (mnemonic i, parse0 i) := by
  intro ops j hj
  simp only [parse0] at hj
  split at hj
  · cases hj; rfl
  · cases hj

/-- The three pseudo-instructions are the only rows whose mnemonic is not their command's (R81). -/
theorem namesItsCommands_or_pseudo : ∀ row ∈ assemblers,
    NamesItsCommands row ∨ row.1 = "ADD" ∨ row.1 = "SUB" ∨ row.1 = "FDBL" := by
  simp only [assemblers, List.forall_mem_cons]
  exact ⟨.inl parse2_names, .inl parse2_names, .inl parse3_names, .inl parse3c_names, .inl parse3c_names,
    .inl parse2_names, .inl parse3_names, .inl parse3_names, .inl parse2_names, .inl parse3_names,
    .inl parse2_names, .inl parse2_names, .inl parse2_names, .inl parse2_names,
    .inl parse3_names, .inl parse3_names, .inl parse3_names, .inl parse3_names, .inl parse3_names,
    .inl parse2_names, .inl parse2_names, .inl parse2_names, .inl parse2_names,
    .inl (parse0_names _), .inl (parse0_names _),
    .inr (.inl trivial), .inr (.inr (.inl trivial)), .inr (.inr (.inr trivial)), nofun⟩

/-- Settles O59: the pseudo-instructions read their operands as written, and every other row names its command. -/
theorem pseudoInstructionsExpand : Obligations.PseudoInstructionsExpand := by
  refine ⟨fun d a b => ⟨parse3_regText .., parse3_regText .., parse2_regText ..⟩, fun name ops i h => ?named⟩
  case named =>
    obtain ⟨row, hmem, rfl, hrow⟩ := mem_of_assemble h
    exact (namesItsCommands_or_pseudo row hmem).imp_left fun hnames => hnames ops i hrow

/-! ## Host directives -/

theorem length_hostReadWords (off n : Nat) : (hostReadWords off n).length = n := by
  induction n generalizing off with
  | zero => rfl
  | succ n ih => rw [hostReadWords, List.length_cons, ih]

theorem getElem?_hostReadWords (off : Nat) {n j : Nat} (h : j < n) :
    (hostReadWords off n)[j]? = some (.read (off + 8 * j) 8) := by
  induction n generalizing off j with
  | zero => omega
  | succ n ih =>
    cases j with
    | zero => rfl
    | succ j =>
      have hoff : off + 8 + 8 * j = off + 8 * (j + 1) := by omega
      rw [hostReadWords, List.getElem?_cons_succ, ih (off + 8) (by omega), hoff]

theorem length_hostWriteWords (off : Nat) (words : List Word) : (hostWriteWords off words).length = words.length := by
  induction words generalizing off with
  | nil => rfl
  | cons v rest ih => rw [hostWriteWords, List.length_cons, ih, List.length_cons]

theorem getElem?_hostWriteWords (off : Nat) {words : List Word} {j : Nat} {v : Word} (h : words[j]? = some v) :
    (hostWriteWords off words)[j]? = some (.write (off + 8 * j) 8 v) := by
  induction words generalizing off j with
  | nil => cases h
  | cons w rest ih =>
    cases j with
    | zero => cases h; rfl
    | succ j =>
      have hoff : off + 8 + 8 * j = off + 8 * (j + 1) := by omega
      rw [hostWriteWords, List.getElem?_cons_succ, ih (off + 8) h, hoff]

/-- Every word of a named location is mapped (R51). -/
theorem accessLoc_of_namedLocation {name : String} {off n j : Nat} (h : namedLocation name = some (off, n))
    (hj : j < n) : (accessLoc (off + 8 * j) 8).isSome = true := by
  have hall : ∀ row ∈ namedLocations, ∀ j < row.2.2, (accessLoc (row.2.1 + 8 * j) 8).isSome = true := by
    decide +kernel
  obtain ⟨row, hfind, hrow⟩ := Option.map_eq_some_iff.mp h
  have hword := hall row (List.mem_of_find?_eq_some hfind) j
  rw [hrow] at hword
  exact hword hj

theorem hostRead_accepted {name : String} {off n : Nat} (h : namedLocation name = some (off, n)) :
    ∃ moves, hostRead name = some moves ∧ moves.length = n ∧ moves.all acceptedMove = true ∧
      ∀ j, j < n → moves[j]? = some (.read (off + 8 * j) 8) := by
  refine ⟨hostReadWords off n, by rw [hostRead, h, Option.map_some], length_hostReadWords off n, ?accepted,
    fun j hj => getElem?_hostReadWords off hj⟩
  case accepted =>
    rw [List.all_eq_true]
    intro e he
    obtain ⟨j, hj⟩ := List.mem_iff_getElem?.mp he
    have hjn : j < n := length_hostReadWords off n ▸ (List.getElem?_eq_some_iff.mp hj).1
    cases hj.symm.trans (getElem?_hostReadWords off hjn)
    exact accessLoc_of_namedLocation h hjn

theorem hostWrite_accepted {name : String} {off n : Nat} (h : namedLocation name = some (off, n)) {words : List Word}
    (hlen : words.length = n) : ∃ moves, hostWrite name words = some moves ∧ moves.length = n ∧
      moves.all acceptedMove = true ∧
      ∀ (j : Nat) (v : Word), words[j]? = some v → moves[j]? = some (.write (off + 8 * j) 8 v) := by
  have hlen' : (hostWriteWords off words).length = n := (length_hostWriteWords off words).trans hlen
  refine ⟨hostWriteWords off words, by simp only [hostWrite, h, if_pos hlen], hlen', ?accepted,
    fun j v hv => getElem?_hostWriteWords off hv⟩
  case accepted =>
    rw [List.all_eq_true]
    intro e he
    obtain ⟨j, hj⟩ := List.mem_iff_getElem?.mp he
    have hjn : j < words.length := length_hostWriteWords off words ▸ (List.getElem?_eq_some_iff.mp hj).1
    cases hj.symm.trans (getElem?_hostWriteWords off (List.getElem?_eq_getElem hjn))
    exact accessLoc_of_namedLocation h (hlen ▸ hjn)

/-- The words that `hostWriteBytes` takes a byte string for (R54). -/
def wordsOfBytes (n : Nat) (bytes : List Byte) : List Word :=
  (List.range n).map fun j => BitVec.ofNat 64 (leInt ((bytes.drop (8 * j)).take 8))

theorem hostWriteBytes_eq (name : String) {n : Nat} {bytes : List Byte} (h : bytes.length = 8 * n) :
    hostWriteBytes name bytes = hostWrite name (wordsOfBytes n bytes) := by
  rw [hostWriteBytes, if_pos (by omega), h, Nat.mul_div_cancel_left n (by decide), wordsOfBytes]

theorem getElem?_wordsOfBytes {n j : Nat} (bytes : List Byte) (h : j < n) :
    (wordsOfBytes n bytes)[j]? = some (BitVec.ofNat 64 (leInt ((bytes.drop (8 * j)).take 8))) := by
  rw [wordsOfBytes, List.getElem?_map, List.getElem?_range h, Option.map_some]

/-- The offsets that R51 gives the names of R80. -/
theorem namedLocation_register (i : Fin 8) :
    namedLocation ("W" ++ toString i.val) = some (0x040 + 8 * i.val, 1) ∧
    namedLocation ("F" ++ toString i.val) = some (0x080 + 16 * i.val, 2) ∧
    (∀ j : Fin 2, namedLocation ("F" ++ toString i.val ++ "." ++ toString j.val) =
      some (0x080 + 16 * i.val + 8 * j.val, 1)) ∧
    namedLocation ("S" ++ toString i.val) = some (0x100 + 32 * i.val, 4) ∧
    ∀ j : Fin 4, namedLocation ("S" ++ toString i.val ++ "." ++ toString j.val) =
      some (0x100 + 32 * i.val + 8 * j.val, 1) := by
  revert i
  decide +kernel

/-- Settles O60: the moves of a directive by induction on their number, the names by evaluating the list of names. -/
theorem hostDirectivesAreAccepted : Obligations.HostDirectivesAreAccepted := by
  refine ⟨fun name off n h => ⟨hostRead_accepted h, fun words hlen => hostWrite_accepted h hlen, ?bytes⟩,
    namedLocation_register, by decide +kernel, by decide +kernel, by decide +kernel, by decide +kernel, fun i => rfl⟩
  case bytes =>
    intro bytes hlen
    have hwords : (wordsOfBytes n bytes).length = n := by rw [wordsOfBytes, List.length_map, List.length_range]
    obtain ⟨moves, hmoves, hcount, haccepted, hat⟩ := hostWrite_accepted h hwords
    exact ⟨moves, hostWriteBytes_eq name hlen ▸ hmoves, hcount, haccepted,
      fun j hj => hat j _ (getElem?_wordsOfBytes bytes hj)⟩

end Sys2Proof.Machine

/-! PROOFS. The constant-time primitives (R100 to R104): the branch-free bits of R100 and R102 as comparisons, the command
words of the formats `R2` and `R3`, and the five commands read off them. -/

namespace Sys2Proof.Machine

/-! ## The branch-free bits -/

/-- The last step of both formulas: the top bit, moved down to bit 0. -/
theorem shiftRight_63_eq (x : Word) : x >>> 63 = if x.msb then 1#64 else 0#64 := by
  have := x.isLt
  apply BitVec.eq_of_toNat_eq
  simp only [BitVec.msb_eq_decide, BitVec.toNat_ushiftRight, Nat.shiftRight_eq_div_pow, decide_eq_true_eq]
  split <;> simp only [BitVec.toNat_ofNat] <;> omega

/-- A word other than 0, or its negation, is at least 2^63 (R100). -/
theorem msb_or_msb_neg (x : Word) : (x.msb || (0#64 - x).msb) = decide (x ≠ 0#64) := by
  have hx := x.isLt
  have hneg : (0#64 - x).toNat = (2 ^ 64 - x.toNat) % 2 ^ 64 := by rw [BitVec.zero_sub, BitVec.toNat_neg]
  have hzero : x = 0#64 ↔ x.toNat = 0 := BitVec.toNat_inj.symm
  rw [BitVec.msb_eq_decide, BitVec.msb_eq_decide, hneg, Bool.eq_iff_iff]
  simp only [Bool.or_eq_true, decide_eq_true_eq, ne_eq, hzero]
  omega

theorem nonZeroBit_eq (x : Word) : nonZeroBit x = if x = 0#64 then 0#64 else 1#64 := by
  rw [nonZeroBit, shiftRight_63_eq, BitVec.msb_or, msb_or_msb_neg]
  by_cases hx : x = 0#64 <;> simp [hx]

theorem one_xor_nonZeroBit (x : Word) : 1#64 ^^^ nonZeroBit x = if x = 0#64 then 1#64 else 0#64 := by
  rw [nonZeroBit_eq]
  split <;> rfl

/-- Between words with one top bit, the top bit of the wrapped difference is the borrow. -/
theorem msb_sub_of_msb_eq {x y : Word} (h : x.msb = y.msb) : (x - y).msb = decide (x.toNat < y.toNat) := by
  have := x.isLt
  have := y.isLt
  simp only [BitVec.msb_eq_decide, BitVec.toNat_sub, decide_eq_decide] at h ⊢
  omega

/-- Words with different top bits are ordered by those. -/
theorem decide_lt_of_msb_ne {x y : Word} (h : x.msb ≠ y.msb) : decide (x.toNat < y.toNat) = y.msb := by
  rw [← BitVec.ult_eq_msb_of_msb_neq h, BitVec.ult_eq_decide]

theorem lessThanBit_eq (x y : Word) : lessThanBit x y = if x.toNat < y.toNat then 1#64 else 0#64 := by
  have hbit : (x ^^^ ((x ^^^ y) ||| ((x - y) ^^^ y))).msb = decide (x.toNat < y.toNat) := by
    simp only [BitVec.msb_xor, BitVec.msb_or]
    by_cases h : x.msb = y.msb
    · rw [msb_sub_of_msb_eq h, h]
      cases y.msb <;> simp
    · rw [decide_lt_of_msb_ne h, Bool.eq_not.mpr h]
      cases y.msb <;> simp
  rw [lessThanBit, shiftRight_63_eq, hbit]
  simp only [decide_eq_true_eq]

/-! ## The command words -/

/-- The word of a command of format `R2` (R72, R75). -/
theorem packWord_r2 (op : Byte) (d a : RegNum) :
    packWord op d a 0 0#2 = opWord op ||| BitVec.ofNat 32 d.val <<< 20 ||| BitVec.ofNat 32 a.val <<< 16 := by
  simp [packWord]

/-- The word of a command of format `R3` (R72, R75). -/
theorem packWord_r3 (op : Byte) (d a b : RegNum) :
    packWord op d a b 0#2 =
      opWord op ||| BitVec.ofNat 32 d.val <<< 20 ||| BitVec.ofNat 32 a.val <<< 16 ||| BitVec.ofNat 32 b.val <<< 12 := by
  simp [packWord]

/-! ## The commands -/

/-- Settles O8: the bit of R100 is the test for 0, and CTZ complements it. -/
theorem ctnzCtzResults : Obligations.CtnzCtzResults := by
  intro s rd ra
  refine ⟨packWord_r2 0x10#8 rd ra, packWord_r2 0x11#8 rd ra, ?ctnz, ?ctz⟩
  case ctnz =>
    simp only [exec, execCtnz, nonZeroBit_eq]
    rfl
  case ctz =>
    simp only [exec, execCtz, one_xor_nonZeroBit]
    rfl

/-- Settles O9: the bit of R102 is the unsigned comparison. -/
theorem ctltResult : Obligations.CtltResult := by
  intro s rd ra rb
  refine ⟨packWord_r3 0x12#8 rd ra rb, ?ctlt⟩
  case ctlt =>
    simp only [exec, execCtlt, lessThanBit_eq]
    rfl

/-- Each legal selector selects its one bit (R74). -/
theorem carryIn_of_selects {cin : BitVec 2} {ci cf : Bool}
    (h : cin = 0#2 ∧ ci = false ∨ cin = 1#2 ∧ ci = true ∨ cin = 2#2 ∧ ci = cf) : carryIn cin cf = some ci := by
  obtain ⟨rfl, rfl⟩ | ⟨rfl, rfl⟩ | ⟨rfl, rfl⟩ := h <;> rfl

/-- Settles O10: the full adder as numbers, for the carry selected. -/
theorem adcResult : Obligations.AdcResult := by
  intro s rd ra rb
  obtain ⟨hrefused, -⟩ := cinThreeIsRefused s rd ra rb
  refine ⟨hrefused, fun cin ci hselects => ⟨rfl, ?adc⟩⟩
  case adc =>
    simp only [exec, execAdc, carryIn_of_selects hselects, addWithCarry_spec]
    rfl

/-- Settles O11: the full subtractor as numbers, for the borrow selected. -/
theorem sbbResult : Obligations.SbbResult := by
  intro s rd ra rb
  obtain ⟨-, hrefused, -⟩ := cinThreeIsRefused s rd ra rb
  refine ⟨hrefused, fun cin bi hselects => ⟨rfl, ?sbb⟩⟩
  case sbb =>
    simp only [exec, execSbb, carryIn_of_selects hselects, subWithBorrow_spec]
    rfl

end Sys2Proof.Machine

/-! PROOFS. The prime-field engine (R120 to R129, R131): the values of its functions in the terms of the statements, a
field command as one write of its destination, and the addition chain of R128 on its exponents. -/

namespace Sys2Proof.Machine

/-! ## Reduction -/

theorem canonical_of_toNat_eq_mod {x : FieldWord} {n : Nat} (h : x.toNat = n % Config.P) : x.toNat < Config.P :=
  h ▸ Nat.mod_lt _ P_pos

theorem fieldReduce_eq_ofNat (a : FieldWord) :
    fieldReduce a = BitVec.ofNat 128 (if a.toNat < Config.P then a.toNat else a.toNat - Config.P) := by
  rw [← fieldReduce_toNat, BitVec.ofNat_toNat, BitVec.setWidth_eq]

theorem fieldReduce_of_canonical {a : FieldWord} (h : a.toNat < Config.P) : fieldReduce a = a := by
  rw [fieldReduce_eq, primeWord_toNat, if_pos h]

/-- Below 2P the first reduction is canonical, and a second one finds nothing to subtract (R121, R131). -/
theorem fieldReduce_idempotent {a : FieldWord} (h : a.toNat < 2 * Config.P) :
    fieldReduce (fieldReduce a) = fieldReduce a :=
  fieldReduce_of_canonical (canonical_of_toNat_eq_mod (fieldReduce_mod a h))

/-! ## Halving -/

theorem fieldHalve_lt {a : FieldWord} (ha : a.toNat < Config.P) : (fieldHalve a).toNat < Config.P := by
  have hP := P_eq
  rw [fieldHalve_toNat a ha]
  split <;> omega

/-- P is odd, so that a + P is even where a is odd (R127). -/
theorem two_mul_fieldHalve_mod {a : FieldWord} (ha : a.toNat < Config.P) :
    2 * (fieldHalve a).toNat % Config.P = a.toNat := by
  have hP := P_eq
  rw [fieldHalve_toNat a ha]
  split
  case isTrue heven =>
    have hdouble : 2 * (a.toNat / 2) = a.toNat := by omega
    rw [hdouble, Nat.mod_eq_of_lt ha]
  case isFalse hodd =>
    have hdouble : 2 * ((a.toNat + Config.P) / 2) = a.toNat + Config.P := by omega
    rw [hdouble, Nat.add_mod_right, Nat.mod_eq_of_lt ha]

/-! ## Negation and inversion -/

theorem neg_mod_eq {m a : Nat} (ha : a < m) : (m - a) % m = if a = 0 then 0 else m - a := by
  split
  case isTrue hzero => rw [hzero, Nat.sub_zero, Nat.mod_self]
  case isFalse hne => exact Nat.mod_eq_of_lt (by omega)

/-- Fermat's little theorem as an inverse: the power p − 2. The prime stays a variable, so that nothing evaluates its
power. -/
theorem mul_pow_sub_two_mod {p a : Nat} (hp : p.Prime) (hpos : a ≠ 0) (hlt : a < p) :
    a * (a ^ (p - 2) % p) % p = 1 := by
  have hcop : a.Coprime p := (Nat.coprime_of_lt_prime hpos hlt hp).symm
  have hexp : p - 2 + 1 = p - 1 := by have := hp.two_le; omega
  calc a * (a ^ (p - 2) % p) % p
      = a ^ (p - 1) % p := by rw [Nat.mul_mod_mod, ← pow_succ', hexp]
    _ = 1 % p := Nat.ModEq.pow_card_sub_one_eq_one hp hcop
    _ = 1 := Nat.mod_eq_of_lt hp.one_lt

theorem inverse_unique {m a v w : Nat} (hcop : a.Coprime m) (hv : v < m) (hw : w < m) (hav : a * v % m = 1)
    (haw : a * w % m = 1) : w = v :=
  Nat.ModEq.eq_of_lt_of_lt (Nat.ModEq.cancel_left_of_coprime hcop.symm (haw.trans hav.symm)) hw hv

theorem mul_fieldInvert_mod {a : FieldWord} (hne : a.toNat ≠ 0) (ha : a.toNat < Config.P) :
    a.toNat * (fieldInvert a).toNat % Config.P = 1 := by
  have hexp : 2 ^ 127 - 3 = Config.P - 2 := by norm_num [P_eq]
  rw [fieldInvert_toNat, hexp]
  exact mul_pow_sub_two_mod P_prime hne ha

theorem fieldInvert_of_zero {a : FieldWord} (h : a.toNat = 0) : (fieldInvert a).toNat = 0 := by
  rw [fieldInvert_toNat, h]
  exact zero_pow_mod _ _ (by norm_num)

theorem fieldInvert_lt (a : FieldWord) : (fieldInvert a).toNat < Config.P :=
  canonical_of_toNat_eq_mod (fieldInvert_toNat a)

/-! ## A field command is one write of its destination -/

/-- On any operands a field command changes its destination and the count of free values only (R120). -/
theorem next_writeFieldResult (s : State) (rd : RegNum) (c : Bool) (v : FieldWord) :
    ∃ x n, (.next (s.writeFieldResult rd c v) : Host.Outcome State Fault Refusal) =
      .next { s with freg := s.freg.set rd x, draws := n } := by
  obtain ⟨x, n, h⟩ := writeFieldResult_spec s rd c v
  exact ⟨x, n, congrArg _ h⟩

/-- With its precondition met a field command writes the value of its function and draws nothing (R120). -/
theorem writeFieldResult_of_value {s : State} {rd : RegNum} {c : Bool} {x : FieldWord} {v : Nat} (hc : c = true)
    (hv : x.toNat = v) : s.writeFieldResult rd c x = { s with freg := s.freg.set rd (BitVec.ofNat 128 v) } := by
  rw [hc, writeFieldResult_canonical, ← hv, BitVec.ofNat_toNat, BitVec.setWidth_eq]
  rfl

theorem fieldUnary_of_canonical {op : FieldWord → FieldWord} {rd ra : RegNum} {s : State} {v : Nat}
    (ha : s.freg[ra].toNat < Config.P) (hv : (op s.freg[ra]).toNat = v) :
    fieldUnary op rd ra s = { s with freg := s.freg.set rd (BitVec.ofNat 128 v) } :=
  writeFieldResult_of_value ((canonicalField_iff _).mpr ha) hv

theorem fieldBinary_of_canonical {op : FieldWord → FieldWord → FieldWord} {rd ra rb : RegNum} {s : State} {v : Nat}
    (ha : s.freg[ra].toNat < Config.P) (hb : s.freg[rb].toNat < Config.P)
    (hv : (op s.freg[ra] s.freg[rb]).toNat = v) :
    fieldBinary op rd ra rb s = { s with freg := s.freg.set rd (BitVec.ofNat 128 v) } :=
  writeFieldResult_of_value
    (Bool.and_eq_true_iff.mpr ⟨(canonicalField_iff _).mpr ha, (canonicalField_iff _).mpr hb⟩) hv

/-! ## The commands -/

/-- Settles O12: one subtraction of P where it does not borrow, which below 2P is the remainder. -/
theorem fredResult : Obligations.FredResult := by
  intro s rd ra a
  have hP := P_eq
  have hexec : exec (.fred rd ra) s =
      .next { s with freg := s.freg.set rd (BitVec.ofNat 128 (if a < Config.P then a else a - Config.P)) } := by
    simp only [exec, execFred, fieldReduce_eq_ofNat]
    rfl
  refine ⟨packWord_r2 0x20#8 rd ra, hexec, ?below, ?twoP, ?greatest⟩
  case below =>
    intro h
    refine ⟨?remainder, fieldReduce_idempotent h⟩
    rw [← fieldReduce_toNat]
    exact fieldReduce_mod _ h
  case twoP =>
    intro h
    have hvalue : (if a < Config.P then a else a - Config.P) = Config.P := by rw [if_neg] <;> omega
    rw [hexec, hvalue]
  case greatest =>
    intro h
    have hvalue : (if a < Config.P then a else a - Config.P) = 2 ^ 127 := by rw [if_neg] <;> omega
    rw [hexec, hvalue]

/-- Settles O13: the fold of bit 127 and the reduction make the remainder of the sum (`fieldAdd_toNat`). -/
theorem faddResult : Obligations.FaddResult := fun _ rd ra rb ha hb =>
  ⟨packWord_r3 0x21#8 rd ra rb, congrArg _ (fieldBinary_of_canonical ha hb (fieldAdd_toNat _ _ ha hb))⟩

/-- Settles O14: the fold of the borrow and the reduction make the remainder of the difference (`fieldSub_toNat`). -/
theorem fsubResult : Obligations.FsubResult := fun _ rd ra rb ha hb =>
  ⟨packWord_r3 0x22#8 rd ra rb, congrArg _ (fieldBinary_of_canonical ha hb (fieldSub_toNat _ _ ha hb))⟩

/-- Settles O15: P − a is canonical but for a = 0, where the final correction gives 0. -/
theorem fnegResult : Obligations.FnegResult := fun _ rd ra ha =>
  ⟨packWord_r2 0x23#8 rd ra,
    congrArg _ (fieldUnary_of_canonical ha ((fieldNeg_toNat _ ha).trans (neg_mod_eq ha)))⟩

/-- Settles O16: the Mersenne reduction of the exact product is its remainder (`fieldMul_toNat`). -/
theorem fmulResult : Obligations.FmulResult := fun _ rd ra rb ha hb =>
  ⟨packWord_r3 0x24#8 rd ra rb, congrArg _ (fieldBinary_of_canonical ha hb (fieldMul_toNat _ _ ha hb))⟩

/-- Settles O17: FSQR and FMUL of a register with itself write the same value. -/
theorem fsqrResult : Obligations.FsqrResult := by
  intro s rd ra ha
  have hexec : exec (.fsqr rd ra) s =
      .next { s with freg := s.freg.set rd (BitVec.ofNat 128 (s.freg[ra].toNat * s.freg[ra].toNat % Config.P)) } :=
    congrArg _ (fieldUnary_of_canonical ha (fieldSqr_toNat _ ha))
  obtain ⟨-, hmul⟩ := fmulResult s rd ra ra ha ha
  exact ⟨packWord_r2 0x25#8 rd ra, hexec, hexec.trans hmul.symm⟩

/-- Settles O18: both parities give the canonical half. -/
theorem fhalfResult : Obligations.FhalfResult := by
  intro s rd ra ha a h
  have hvalue : (fieldHalve s.freg[ra]).toNat = h := fieldHalve_toNat _ ha
  exact ⟨packWord_r2 0x26#8 rd ra, congrArg _ (fieldUnary_of_canonical ha hvalue), hvalue ▸ fieldHalve_lt ha,
    hvalue ▸ two_mul_fieldHalve_mod ha⟩

/-- Settles O19: the value that the square-and-multiply form evaluates (`fieldPow125_toNat`). -/
theorem fpow125Result : Obligations.Fpow125Result := fun _ rd ra ha =>
  ⟨packWord_r2 0x27#8 rd ra, congrArg _ (fieldUnary_of_canonical ha (fieldPow125_toNat _))⟩

/-- Settles O20: by Fermat's little theorem the power is an inverse, and a unit has one inverse below P. -/
theorem finvResult : Obligations.FinvResult := by
  intro s rd ra ha
  refine ⟨(fieldInvert s.freg[ra]).toNat, fieldInvert_lt _, packWord_r2 0x28#8 rd ra,
    congrArg _ (fieldUnary_of_canonical ha rfl), fieldInvert_toNat _, ?inverse, fieldInvert_of_zero⟩
  case inverse =>
    intro hne
    have hcop : s.freg[ra].toNat.Coprime Config.P := (Nat.coprime_of_lt_prime hne ha P_prime).symm
    have hinv := mul_fieldInvert_mod hne ha
    exact ⟨hinv, fun w hw haw => inverse_unique hcop (fieldInvert_lt _) hw hinv haw⟩

/-- Settles O21: each of the eight ends in the one operation that writes a field result. -/
theorem fieldCommandsCompleteOnEveryOperand : Obligations.FieldCommandsCompleteOnEveryOperand := by
  intro s rd ra rb i hi
  simp only [List.mem_cons, List.not_mem_nil, or_false] at hi
  obtain rfl | rfl | rfl | rfl | rfl | rfl | rfl | rfl := hi
  all_goals exact next_writeFieldResult ..

/-! ## The laws -/

theorem fieldMul_fieldHalve_two {a : FieldWord} (ha : a.toNat < Config.P) : fieldMul (fieldHalve a) 2#128 = a := by
  have htwo : (2#128).toNat < Config.P := by decide
  apply BitVec.eq_of_toNat_eq
  rw [fieldMul_toNat _ _ (fieldHalve_lt ha) htwo, mul_comm]
  exact two_mul_fieldHalve_mod ha

theorem fieldMul_fieldInvert {a : FieldWord} (hne : a.toNat ≠ 0) (ha : a.toNat < Config.P) :
    fieldMul a (fieldInvert a) = 1#128 := by
  apply BitVec.eq_of_toNat_eq
  rw [fieldMul_toNat _ _ ha (fieldInvert_lt a)]
  exact mul_fieldInvert_mod hne ha

/-- Settles O22: every function but `halve` answers a remainder modulo P. -/
theorem fieldLaws : Obligations.FieldLaws := by
  refine ⟨fun a b ha hb => ⟨?add, ?sub, ?mul, ?sqr, ?neg, fieldHalve_lt ha, ?pow125, fieldInvert_lt a,
    fieldMul_fieldHalve_two ha, fun hne => fieldMul_fieldInvert hne ha⟩, fun a => fieldReduce_idempotent⟩
  case add => exact canonical_of_toNat_eq_mod (fieldAdd_toNat a b ha hb)
  case sub => exact canonical_of_toNat_eq_mod (fieldSub_toNat a b ha hb)
  case mul => exact canonical_of_toNat_eq_mod (fieldMul_toNat a b ha hb)
  case sqr => exact canonical_of_toNat_eq_mod (fieldSqr_toNat a ha)
  case neg => exact canonical_of_toNat_eq_mod (fieldNeg_toNat a ha)
  case pow125 => exact canonical_of_toNat_eq_mod (fieldPow125_toNat a)

/-! ## The addition chain -/

/-- `x` is the power of `a` whose exponent is written with `k` ones, as each value of R128's chain is. -/
def IsOnesPower (a : FieldWord) (k : Nat) (x : FieldWord) : Prop := x.toNat = a.toNat ^ (2 ^ k - 1) % Config.P

theorem isOnesPower_one {a : FieldWord} (ha : a.toNat < Config.P) : IsOnesPower a 1 a := by
  simp [IsOnesPower, Nat.mod_eq_of_lt ha]

theorem IsOnesPower.lt {a x : FieldWord} {k : Nat} (h : IsOnesPower a k x) : x.toNat < Config.P :=
  canonical_of_toNat_eq_mod h

theorem IsOnesPower.unique {a x y : FieldWord} {k : Nat} (hx : IsOnesPower a k x) (hy : IsOnesPower a k y) : x = y :=
  BitVec.eq_of_toNat_eq (hx.trans hy.symm)

/-- `j` ones shifted left by `i`, and `i` ones below them. -/
theorem ones_add_ones_shifted (i j : Nat) : 2 ^ i - 1 + (2 ^ j - 1) * 2 ^ i = 2 ^ (i + j) - 1 := by
  have hi : 0 < 2 ^ i := by positivity
  have hle : 2 ^ i ≤ 2 ^ (i + j) := Nat.pow_le_pow_right (by norm_num) (by omega)
  rw [Nat.sub_mul, one_mul, ← pow_add, add_comm j i]
  omega

/-- One line of the chain: `i` squarings shift the exponent of `y`, and the multiplication by `x` fills the gap. -/
theorem IsOnesPower.fieldMul_fieldSqrTimes {a x y : FieldWord} {i j k : Nat} (hx : IsOnesPower a i x)
    (hy : IsOnesPower a j y) (hk : i + j = k) : IsOnesPower a k (fieldMul x (fieldSqrTimes i y)) := by
  have hsqr := fieldSqrTimes_toNat i y hy.lt
  rw [IsOnesPower, fieldMul_toNat x _ hx.lt (canonical_of_toNat_eq_mod hsqr), hsqr, hx, hy, ← Nat.pow_mod,
    ← Nat.mul_mod, ← pow_mul, ← pow_add, ones_add_ones_shifted, hk]

/-- The chain's first and last line square once. -/
theorem IsOnesPower.fieldMul_fieldSqr {a x y : FieldWord} {j k : Nat} (hx : IsOnesPower a 1 x) (hy : IsOnesPower a j y)
    (hk : 1 + j = k) : IsOnesPower a k (fieldMul x (fieldSqr y)) :=
  hx.fieldMul_fieldSqrTimes hy hk

theorem fieldMul_comm (x y : FieldWord) : fieldMul x y = fieldMul y x := by
  rw [fieldMul, fieldMul, mul_comm]

/-- Settles O23: from line to line the exponents have 2, 4, 8, 16, 32, 64, 96, 112, 120, 124 and 125 ones. -/
theorem powerChainRefinesFpow125 : Obligations.PowerChainRefinesFpow125 := by
  intro a ha
  have h1 : IsOnesPower a 1 a := isOnesPower_one ha
  have h2 : IsOnesPower a 2 _ := h1.fieldMul_fieldSqr h1 rfl
  have h4 : IsOnesPower a 4 _ := h2.fieldMul_fieldSqrTimes h2 rfl
  have h8 : IsOnesPower a 8 _ := h4.fieldMul_fieldSqrTimes h4 rfl
  have h16 : IsOnesPower a 16 _ := h8.fieldMul_fieldSqrTimes h8 rfl
  have h32 : IsOnesPower a 32 _ := h16.fieldMul_fieldSqrTimes h16 rfl
  have h64 : IsOnesPower a 64 _ := h32.fieldMul_fieldSqrTimes h32 rfl
  have h96 : IsOnesPower a 96 _ := fieldMul_comm .. ▸ h32.fieldMul_fieldSqrTimes h64 rfl
  have h112 : IsOnesPower a 112 _ := h16.fieldMul_fieldSqrTimes h96 rfl
  have h120 : IsOnesPower a 120 _ := h8.fieldMul_fieldSqrTimes h112 rfl
  have h124 : IsOnesPower a 124 _ := h4.fieldMul_fieldSqrTimes h120 rfl
  have h125 : IsOnesPower a 125 _ := h1.fieldMul_fieldSqr h124 rfl
  exact h125.unique (fieldPow125_toNat a)

end Sys2Proof.Machine

/-! PROOFS. The scalar engine (R150 to R164): the ripple chains of R151 and R152 as wide sums and differences, the mask
form of R157, the commands, and the laws of the Montgomery domain. -/

namespace Sys2Proof.Machine

/-! ## The ripple chains -/

theorem wordsValue_lt (ws : List Word) : wordsValue ws < 2 ^ (64 * ws.length) := by
  induction ws with
  | nil => simp [wordsValue]
  | cons w rest ih =>
    have hw := w.isLt
    rw [wordsValue, List.length_cons, Nat.mul_succ, pow_add]
    omega

theorem toNat_decide (p : Prop) [Decidable p] : (decide p).toNat = if p then 1 else 0 := by
  split <;> simp [*]

/-- Sum and carry of the full adder together are the exact sum (R103). -/
theorem addWithCarry_exact (c : Bool) (a b : Word) :
    (addWithCarry c a b).2.toNat + 2 ^ 64 * (addWithCarry c a b).1.toNat = a.toNat + b.toNat + c.toNat := by
  have ha := a.isLt
  have hb := b.isLt
  have hc := Bool.toNat_le c
  simp only [addWithCarry_spec, BitVec.toNat_ofNat, toNat_decide]
  split <;> omega

/-- Difference and borrow of the full subtractor together are the exact difference (R104). -/
theorem subWithBorrow_exact (c : Bool) (a b : Word) :
    (subWithBorrow c a b).2.toNat + b.toNat + c.toNat = a.toNat + 2 ^ 64 * (subWithBorrow c a b).1.toNat := by
  have ha := a.isLt
  have hb := b.isLt
  have hc := Bool.toNat_le c
  simp only [subWithBorrow_spec, BitVec.toNat_ofNat, toNat_decide]
  split <;> omega

/-- Induction along two lists of one length, as the chains run. -/
theorem equalLength_induction {motive : (as bs : List Word) → as.length = bs.length → Prop}
    (nil : motive [] [] rfl)
    (cons : ∀ a as b bs (h : as.length = bs.length), motive as bs h →
      motive (a :: as) (b :: bs) (congrArg (· + 1) h))
    (as bs : List Word) (h : as.length = bs.length) : motive as bs h := by
  induction as generalizing bs with
  | nil =>
    cases bs with
    | nil => exact nil
    | cons b bs => cases h
  | cons a as ih =>
    cases bs with
    | nil => cases h
    | cons b bs => exact cons a as b bs (Nat.succ.inj h) (ih bs (Nat.succ.inj h))

theorem rippleAdd_length (c : Bool) {as bs : List Word} (h : as.length = bs.length) :
    (rippleAdd c as bs).1.length = as.length := by
  induction as, bs, h using equalLength_induction generalizing c with
  | nil => rfl
  | cons a as b bs h ih => exact congrArg (· + 1) (ih _)

theorem rippleSub_length (c : Bool) {as bs : List Word} (h : as.length = bs.length) :
    (rippleSub c as bs).1.length = as.length := by
  induction as, bs, h using equalLength_induction generalizing c with
  | nil => rfl
  | cons a as b bs h ih => exact congrArg (· + 1) (ih _)

/-- The chain keeps the exact sum: what a word loses stands in the carry into the next one (R151). -/
theorem rippleAdd_exact (c : Bool) {as bs : List Word} (h : as.length = bs.length) :
    wordsValue (rippleAdd c as bs).1 + 2 ^ (64 * as.length) * (rippleAdd c as bs).2.toNat =
      wordsValue as + wordsValue bs + c.toNat := by
  induction as, bs, h using equalLength_induction generalizing c with
  | nil => simp [rippleAdd, wordsValue]
  | cons a as b bs h ih =>
    have hword := addWithCarry_exact c a b
    have hrest := ih (addWithCarry c a b).1
    simp only [rippleAdd, wordsValue, List.length_cons, Nat.mul_succ, pow_add]
    linarith

/-- The chain keeps the exact difference: what a word borrows is taken from the next one (R152). -/
theorem rippleSub_exact (c : Bool) {as bs : List Word} (h : as.length = bs.length) :
    wordsValue (rippleSub c as bs).1 + wordsValue bs + c.toNat =
      wordsValue as + 2 ^ (64 * as.length) * (rippleSub c as bs).2.toNat := by
  induction as, bs, h using equalLength_induction generalizing c with
  | nil => simp [rippleSub, wordsValue]
  | cons a as b bs h ih =>
    have hword := subWithBorrow_exact c a b
    have hrest := ih (subWithBorrow c a b).1
    simp only [rippleSub, wordsValue, List.length_cons, Nat.mul_succ, pow_add]
    linarith

/-- An exact sum determines its low part and its carry. -/
theorem sum_and_carry_eq {k low sum : Nat} {carry : Bool} (hlow : low < 2 ^ k) (h : low + 2 ^ k * carry.toNat = sum) :
    (BitVec.ofNat k sum, decide (2 ^ k ≤ sum)) = (BitVec.ofNat k low, carry) := by
  subst h
  refine Prod.ext (BitVec.eq_of_toNat_eq ?low) ?carry
  case low => simp
  case carry => cases carry <;> simp [hlow]

/-- An exact difference determines its low part and its borrow. -/
theorem difference_and_borrow_eq {k low a b : Nat} {borrow : Bool} (hlow : low < 2 ^ k)
    (h : low + b = a + 2 ^ k * borrow.toNat) :
    (BitVec.ofNat k (a + 2 ^ k - b), decide (a < b)) = (BitVec.ofNat k low, borrow) := by
  cases borrow with
  | false =>
    have hsum : a + 2 ^ k - b = low + 2 ^ k := by simp only [Bool.toNat_false] at h; omega
    have hle : ¬ a < b := by simp only [Bool.toNat_false] at h; omega
    rw [hsum, decide_eq_false hle]
    refine Prod.ext (BitVec.eq_of_toNat_eq ?_) rfl
    simp
  | true =>
    have hsum : a + 2 ^ k - b = low := by simp only [Bool.toNat_true] at h; omega
    have hlt : a < b := by simp only [Bool.toNat_true] at h; omega
    rw [hsum, decide_eq_true hlt]

/-- `mp_sub` with its difference as a number (R152). -/
theorem mpSub_eq_ofNat {k : Nat} (a b : BitVec k) :
    mpSub a b = (BitVec.ofNat k (a.toNat + 2 ^ k - b.toNat), decide (a.toNat < b.toNat)) := by
  have hsum : 2 ^ k - b.toNat + a.toNat = a.toNat + 2 ^ k - b.toNat := by have := b.isLt; omega
  rw [mpSub_spec, BitVec.sub_def, hsum]

/-- A chain with nothing into word 0 is the wide sum and its carry (R151). -/
theorem rippleAdd_eq {as bs : List Word} (h : as.length = bs.length) :
    (BitVec.ofNat (64 * as.length) (wordsValue as + wordsValue bs),
      decide (2 ^ (64 * as.length) ≤ wordsValue as + wordsValue bs)) =
      (BitVec.ofNat (64 * as.length) (wordsValue (rippleAdd false as bs).1), (rippleAdd false as bs).2) :=
  sum_and_carry_eq (rippleAdd_length false h ▸ wordsValue_lt _) (rippleAdd_exact false h)

/-- A chain with nothing into word 0 is the wide difference and its borrow (R152). -/
theorem rippleSub_eq {as bs : List Word} (h : as.length = bs.length) :
    (BitVec.ofNat (64 * as.length) (wordsValue as + 2 ^ (64 * as.length) - wordsValue bs),
      decide (wordsValue as < wordsValue bs)) =
      (BitVec.ofNat (64 * as.length) (wordsValue (rippleSub false as bs).1), (rippleSub false as bs).2) :=
  difference_and_borrow_eq (rippleSub_length false h ▸ wordsValue_lt _) (rippleSub_exact false h)

/-- Settles O26: by induction on the words each chain is exact, and its words stay below 2^(64n). -/
theorem rippleChainsEqualWideAddAndSub : Obligations.RippleChainsEqualWideAddAndSub := by
  rintro n as bs rfl hbs a b
  have ha : (BitVec.ofNat (64 * as.length) a).toNat = a := BitVec.toNat_ofNat .. ▸ Nat.mod_eq_of_lt (wordsValue_lt as)
  have hb : (BitVec.ofNat (64 * as.length) b).toNat = b :=
    BitVec.toNat_ofNat .. ▸ Nat.mod_eq_of_lt (hbs ▸ wordsValue_lt bs)
  rw [mpAdd_spec, mpSub_eq_ofNat, ha, hb]
  exact ⟨rfl, rippleAdd_eq hbs.symm, rfl, rippleSub_eq hbs.symm⟩

/-! ## The branch-free correction -/

/-- The order is taken off the low 256 bits of a value below 2^256 + order, and put back where the value was below the
order: the mask is the difference of the value's top bit and the borrow (R157). -/
theorem masked_subtract_eq {v : Nat} {top : Bool} {low order : Scalar} (hv : v = top.toNat * 2 ^ 256 + low.toNat)
    (hlt : v < 2 ^ 256 + order.toNat) :
    low - order +
        (order &&& (BitVec.ofNat 256 top.toNat - BitVec.ofNat 256 (decide (low.toNat < order.toNat)).toNat)) =
      BitVec.ofNat 256 (if order.toNat ≤ v then v - order.toNat else v) := by
  have hlow := low.isLt
  have horder := order.isLt
  cases top with
  | false =>
    rw [Bool.toNat_false, zero_mul, zero_add] at hv
    subst hv
    by_cases hborrow : low.toNat < order.toNat
    · have hmask : BitVec.ofNat 256 false.toNat - BitVec.ofNat 256 true.toNat = BitVec.allOnes 256 := maskOf_true 256
      rw [decide_eq_true hborrow, hmask, BitVec.and_allOnes, BitVec.sub_add_cancel, if_neg (by omega),
        BitVec.ofNat_toNat, BitVec.setWidth_eq]
    · rw [decide_eq_false hborrow, BitVec.sub_self, BitVec.and_zero, BitVec.add_zero, if_pos (by omega)]
      exact BitVec.eq_of_toNat_eq (by rw [BitVec.toNat_sub, BitVec.toNat_ofNat]; omega)
  | true =>
    rw [Bool.toNat_true, one_mul] at hv
    have hborrow : low.toNat < order.toNat := by omega
    rw [decide_eq_true hborrow, BitVec.sub_self, BitVec.and_zero, BitVec.add_zero, if_pos (by omega)]
    exact BitVec.eq_of_toNat_eq (by rw [BitVec.toNat_sub, BitVec.toNat_ofNat]; omega)

theorem upper_half_toNat {k : Nat} (x : BitVec (k + k)) : (x.extractLsb' k k).toNat = x.toNat / 2 ^ k := by
  have hx : x.toNat / 2 ^ k < 2 ^ k := Nat.div_lt_of_lt_mul (pow_add 2 k k ▸ x.isLt)
  rw [BitVec.extractLsb'_toNat, Nat.shiftRight_eq_div_pow, Nat.mod_eq_of_lt hx]

theorem montgomeryV_eq_top_and_low (c : CurveParams) (ma mb : Scalar) :
    montgomeryV c ma mb = (montgomerySum c ma mb).2.toNat * 2 ^ 256 +
      ((montgomerySum c ma mb).1.extractLsb' 256 256).toNat :=
  congrArg (_ + ·) (upper_half_toNat (k := 256) (montgomerySum c ma mb).1).symm

/-- Settles O30: `V` is below 2^256 + ORDER, so the carry comes with a borrow. -/
theorem montgomeryMaskFormAgrees : Obligations.MontgomeryMaskFormAgrees := by
  intro c ma mb
  rw [montgomeryMultiplyMasked, montgomeryMultiply, mpSub_spec]
  exact masked_subtract_eq (montgomeryV_eq_top_and_low c ma mb) (montgomeryV_lt c ma mb)

/-! ## The Montgomery domain -/

theorem fromMontgomery_toMontgomery (c : CurveParams) (hc : c.Relations) {a : Scalar} (ha : a.toNat < c.order.toNat) :
    fromMontgomery c (toMontgomery c a) = a :=
  BitVec.eq_of_toNat_eq ((moduloOrder_toNat c hc a).trans (Nat.mod_eq_of_lt ha))

/-- `toMontgomery` brings one radix in (R158). -/
theorem toMontgomery_modEq (c : CurveParams) (hc : c.Relations) (a : Scalar) :
    (toMontgomery c a).toNat ≡ a.toNat * 2 ^ 256 [MOD c.order.toNat] :=
  toMontgomery_toNat c hc a ▸ Nat.mod_modEq _ _

/-- MMUL takes one of the two radices of its operands out: the domain is closed under it (R157, R164). -/
theorem montgomeryMultiply_toMontgomery_modEq (c : CurveParams) (hc : c.Relations) (x y : Scalar) :
    (montgomeryMultiply c (toMontgomery c x) (toMontgomery c y)).toNat ≡ x.toNat * y.toNat * 2 ^ 256
      [MOD c.order.toNat] := by
  refine radix_cancel c hc ?_
  calc (montgomeryMultiply c (toMontgomery c x) (toMontgomery c y)).toNat * 2 ^ 256
      ≡ (toMontgomery c x).toNat * (toMontgomery c y).toNat [MOD c.order.toNat] := montgomeryMultiply_modEq c hc _ _
    _ ≡ x.toNat * 2 ^ 256 * (y.toNat * 2 ^ 256) [MOD c.order.toNat] :=
      (toMontgomery_modEq c hc x).mul (toMontgomery_modEq c hc y)
    _ = x.toNat * y.toNat * 2 ^ 256 * 2 ^ 256 := by ring

/-- FROMMONT takes the last radix out of the product in the domain (R164). -/
theorem productThroughDomain_toNat (c : CurveParams) (hc : c.Relations) (x y : Scalar) :
    (productThroughDomain c x y).toNat = x.toNat * y.toNat % c.order.toNat := by
  have hproduct : (productThroughDomain c x y).toNat ≡ x.toNat * y.toNat [MOD c.order.toNat] :=
    radix_cancel c hc ((fromMontgomery_modEq c hc _).trans (montgomeryMultiply_toMontgomery_modEq c hc x y))
  have hlt : (productThroughDomain c x y).toNat < c.order.toNat := fromMontgomery_lt c hc _
  exact (Nat.mod_eq_of_lt hlt).symm.trans hproduct

/-- Settles O35: the round trip is `modulo_order` of a canonical operand. -/
theorem montgomeryDomainLaws : Obligations.MontgomeryDomainLaws := fun c hc x y =>
  ⟨fromMontgomery_toMontgomery c hc, productThroughDomain_toNat c hc x y⟩

/-! ## `makeOdd` -/

theorem makeOdd_odd (c : CurveParams) (hc : c.Relations) (k : Scalar) : (makeOdd c k).toNat % 2 = 1 := by
  have hodd := hc.odd
  rw [makeOdd_toNat]
  split <;> omega

theorem makeOdd_modEq (c : CurveParams) {k : Scalar} (h : k.toNat + c.order.toNat < 2 ^ 256) :
    (makeOdd c k).toNat % c.order.toNat = k.toNat % c.order.toNat := by
  rw [makeOdd_toNat, Nat.mod_eq_of_lt h]
  split
  · exact Nat.add_mod_right ..
  · rfl

/-! ## The commands -/

/-- The write of a scalar command in the terms of the statements: the destination gets the number `v`. -/
theorem writeS_of_value {x : Scalar} {v : Nat} (s : State) (rd : RegNum) (hv : x.toNat = v) :
    s.writeS rd x = { s with sreg := s.sreg.set rd (BitVec.ofNat 256 v) } := by
  rw [← hv, BitVec.ofNat_toNat, BitVec.setWidth_eq]
  rfl

/-- The relations of R7 at the machine's own constants. -/
theorem curve_relations : Config.curve.Relations := CurveConstants.curveConstantsMeetTheirRelations

/-- Settles O24: the sum and the carry of `mp_add`. -/
theorem mpaddResult : Obligations.MpaddResult := by
  intro s rd ra rb
  refine ⟨packWord_r3 0x30#8 rd ra rb, ?mpadd⟩
  case mpadd =>
    simp only [exec, execMpadd, mpAdd_spec]
    rfl

/-- Settles O25: the difference and the borrow of `mp_sub`. -/
theorem mpsubResult : Obligations.MpsubResult := by
  intro s rd ra rb
  refine ⟨packWord_r3 0x31#8 rd ra rb, ?mpsub⟩
  case mpsub =>
    simp only [exec, execMpsub, mpSub_eq_ofNat]
    rfl

/-- Settles O27: the value of `subtractModOrder`, which on canonical operands is its law. -/
theorem ssubmResult : Obligations.SsubmResult := by
  intro s rd ra rb a b order
  have hvalue := subtractModOrder_toNat Config.curve s.sreg[ra] s.sreg[rb]
  refine ⟨(subtractModOrder Config.curve s.sreg[ra] s.sreg[rb]).toNat, BitVec.isLt _, packWord_r3 0x33#8 rd ra rb,
    congrArg _ (writeS_of_value s rd rfl), ?noBorrow, ?borrow, subtractModOrder_canonical _ curve_relations _ _⟩
  case noBorrow => exact fun h => hvalue.trans (if_pos h)
  case borrow => exact fun h => hvalue.trans (if_neg (Nat.not_le.mpr h))

/-- Settles O28: the value of `addModOrder`, which on canonical operands is its law. -/
theorem saddmResult : Obligations.SaddmResult := by
  intro s rd ra rb a b sum order
  have hvalue := addModOrder_toNat Config.curve s.sreg[ra] s.sreg[rb]
  refine ⟨(addModOrder Config.curve s.sreg[ra] s.sreg[rb]).toNat, BitVec.isLt _, packWord_r3 0x32#8 rd ra rb,
    congrArg _ (writeS_of_value s rd rfl), ?subtract, ?keep, addModOrder_canonical _ curve_relations _ _⟩
  case subtract => exact fun h => hvalue.trans (if_pos h)
  case keep => exact fun h => hvalue.trans (if_neg (Nat.not_le.mpr h))

/-- Settles O29: `total / 2^256` is `V`, and at most one subtraction of the order follows. -/
theorem mmulResult : Obligations.MmulResult := by
  intro s rd ra rb ma mb order q total
  have hV : montgomeryV Config.curve s.sreg[ra] s.sreg[rb] = total / 2 ^ 256 := montgomeryV_eq _ _ _
  have hvalue := montgomeryMultiply_toNat Config.curve s.sreg[ra] s.sreg[rb]
  rw [hV] at hvalue
  refine ⟨(montgomeryMultiply Config.curve s.sreg[ra] s.sreg[rb]).toNat, BitVec.isLt _, packWord_r3 0x34#8 rd ra rb,
    congrArg _ (writeS_of_value s rd rfl), Nat.mod_eq_zero_of_dvd (montgomeryTotal_dvd _ curve_relations _ _),
    ?subtract, ?keep, montgomeryMultiply_modEq _ curve_relations _ _, montgomeryMultiply_lt _ _ _⟩
  case subtract => exact fun h => hvalue.trans (if_pos h)
  case keep => exact fun h => hvalue.trans (if_neg (Nat.not_le.mpr h))

/-- Settles O31: MMUL with R² brings in one radix. -/
theorem tomontResult : Obligations.TomontResult := fun s rd ra =>
  ⟨packWord_r2 0x35#8 rd ra, congrArg _ (writeS_of_value s rd (toMontgomery_toNat _ curve_relations _))⟩

/-- Settles O32: MMUL with 1 takes one radix out. -/
theorem frommontResult : Obligations.FrommontResult := fun s rd ra =>
  ⟨(fromMontgomery Config.curve s.sreg[ra]).toNat, fromMontgomery_lt _ curve_relations _, packWord_r2 0x36#8 rd ra,
    congrArg _ (writeS_of_value s rd rfl), fromMontgomery_modEq _ curve_relations _,
    fun _ => fromMontgomery_toMontgomery _ curve_relations⟩

/-- Settles O33: the way into the domain and back reduces modulo the order. -/
theorem smodrResult : Obligations.SmodrResult := fun s rd ra =>
  ⟨packWord_r2 0x37#8 rd ra, congrArg _ (writeS_of_value s rd (moduloOrder_toNat _ curve_relations _))⟩

/-- Settles O34: the order is odd and is added to an even operand only. -/
theorem mkoddResult : Obligations.MkoddResult := by
  intro s rd ra k order v
  have hvalue : (makeOdd Config.curve s.sreg[ra]).toNat = v := makeOdd_toNat _ _
  exact ⟨packWord_r2 0x38#8 rd ra, congrArg _ (writeS_of_value s rd hvalue),
    hvalue ▸ makeOdd_odd _ curve_relations _, fun h => hvalue ▸ makeOdd_modEq _ h⟩

/-! ## The laws -/

theorem readS_writeS_same (s : State) (i : RegNum) (v : Scalar) : (s.writeS i v).readS i = v := by
  rw [readS_writeS, if_pos rfl]

theorem readS_writeS_of_ne (s : State) {i j : RegNum} (v : Scalar) (h : i ≠ j) :
    (s.writeS i v).readS j = s.readS j := by
  rw [readS_writeS, if_neg h]

/-- TOMONT, TOMONT, MMUL, FROMMONT complete in this order and leave the product through the domain: no one of them
writes over an operand that a later one needs (R164). -/
theorem exec_productThroughDomain (s : State) {d e : RegNum} (a : RegNum) {b : RegNum} (hde : d ≠ e) (hbd : b ≠ d) :
    ∃ s₁ s₂ s₃ s₄, exec (.tomont d a) s = .next s₁ ∧ exec (.tomont e b) s₁ = .next s₂ ∧
      exec (.mmul d d e) s₂ = .next s₃ ∧ exec (.frommont d d) s₃ = .next s₄ ∧
      s₄.readS d = productThroughDomain Config.curve (s.readS a) (s.readS b) := by
  refine ⟨_, _, _, _, rfl, rfl, rfl, rfl, ?product⟩
  case product =>
    rw [readS_writeS_same, readS_writeS_same, readS_writeS_same, readS_writeS_of_ne _ _ hde.symm, readS_writeS_same,
      readS_writeS_of_ne _ _ hbd.symm]
    rfl

/-- Settles O36: each law from the value of its function, and the four commands from the product through the domain. -/
theorem scalarEngineLaws : Obligations.ScalarEngineLaws := by
  refine ⟨fun c hc => ⟨?ring, fun _ => fromMontgomery_toMontgomery c hc, ?odd, productThroughDomain_toNat c hc⟩,
    ?machine⟩
  case ring =>
    exact fun a b ha hb => ⟨addModOrder_canonical c hc a b ha hb, subtractModOrder_canonical c hc a b ha hb⟩
  case odd => exact fun k => ⟨makeOdd_odd c hc k, makeOdd_modEq c⟩
  case machine =>
    intro s d e a b hde hbd
    obtain ⟨s₁, s₂, s₃, s₄, h₁, h₂, h₃, h₄, hd⟩ := exec_productThroughDomain s a hde hbd
    refine ⟨s₁, s₂, s₃, s₄, h₁, h₂, h₃, h₄, ?_⟩
    exact (congrArg BitVec.toNat hd).trans (productThroughDomain_toNat _ curve_relations _ _)

end Sys2Proof.Machine

/-! PROOFS. SchnorrQ (R183 to R191): the layout of a signature, what SIGN writes, when VERIFY accepts, and the round
trip of the two in any group of points that the order annihilates. -/

namespace Sys2Proof.Machine

/-! ## The layout of a signature -/

/-- The layout of R183: the encoded nonce point, then the scalar field. -/
def signatureLayout (renc field : Vector Byte 32) : Vector Byte 64 := (renc ++ field : Vector Byte (32 + 32))

theorem signatureLayout_take (renc field : Vector Byte 32) :
    (signatureLayout renc field).toList.take 32 = renc.toList := by
  have happend : (signatureLayout renc field).toList = renc.toList ++ field.toList := Vector.toList_append
  rw [happend, List.take_left' (Vector.length_toList ..)]

theorem signatureLayout_drop (renc field : Vector Byte 32) :
    (signatureLayout renc field).toList.drop 32 = field.toList := by
  have happend : (signatureLayout renc field).toList = renc.toList ++ field.toList := Vector.toList_append
  rw [happend, List.drop_left' (Vector.length_toList ..)]

theorem signatureLayout_getElem_nonce (renc field : Vector Byte 32) {i : Nat} (h : i < 32) :
    (signatureLayout renc field)[i] = renc[i] := Vector.getElem_append_left h

theorem signatureLayout_getElem_scalar (renc field : Vector Byte 32) {i : Nat} (h : i < 32) :
    (signatureLayout renc field)[32 + i] = field[i] := by
  have hright : (signatureLayout renc field)[32 + i] = field[32 + i - 32] :=
    Vector.getElem_append_right (by omega) (by omega)
  simpa only [Nat.add_sub_cancel_left] using hright

/-- Byte 31 of a value of at most 246 bits is zero (R183). -/
theorem leBytes_byte31_eq_zero {v : Nat} (h : v < 2 ^ 246) : (leBytes v 32)[31] = 0#8 := by
  rw [leBytes_getElem, Nat.div_eq_of_lt (by omega)]

/-- The top two bits of byte 30 of a value of at most 246 bits are zero (R183). -/
theorem leBytes_byte30_and_eq_zero {v : Nat} (h : v < 2 ^ 246) : (leBytes v 32)[30] &&& 0xC0#8 = 0#8 := by
  have hbyte : (leBytes v 32)[30] < 64#8 := by
    rw [leBytes_getElem, BitVec.lt_def, BitVec.toNat_ofNat, BitVec.toNat_ofNat]
    omega
  have hclear : ∀ b : Byte, b < 64#8 → b &&& 0xC0#8 = 0#8 := by decide
  exact hclear _ hbyte

/-! ## Signing -/

/-- `s` of R186: `(r + h · a) mod ORDER`. -/
def signatureValue {Point : Type} (ext : Externals Point) (c : CurveParams) (subseed pk md : Vector Byte 32) : Nat :=
  ((nonceScalar ext subseed md).toNat +
    (challengeScalar ext (nonceEncoding ext subseed md).toList pk md).toNat * (privateScalar ext subseed).toNat) %
      c.order.toNat

section Signing

variable {Point : Type} (ext : Externals Point) {c : CurveParams} (hc : c.Relations) (subseed pk md : Vector Byte 32)

include hc

theorem schnorrSign_eq_signatureLayout : schnorrSign ext c subseed pk md =
    signatureLayout (nonceEncoding ext subseed md) (leBytes (signatureValue ext c subseed pk md) 32) :=
  schnorrSign_eq ext c hc subseed pk md

theorem signatureValue_lt_order : signatureValue ext c subseed pk md < c.order.toNat :=
  Nat.mod_lt _ (order_pos c hc)

theorem signatureValue_lt : signatureValue ext c subseed pk md < 2 ^ 246 :=
  (signatureValue_lt_order ext hc subseed pk md).trans_le hc.le

theorem schnorrSign_byte15 : (schnorrSign ext c subseed pk md)[15] = (nonceEncoding ext subseed md)[15] := by
  rw [schnorrSign_eq_signatureLayout ext hc]
  exact signatureLayout_getElem_nonce _ _ (by omega)

theorem schnorrSign_byte62 : (schnorrSign ext c subseed pk md)[62] &&& 0xC0#8 = 0#8 := by
  have hbyte := signatureLayout_getElem_scalar (nonceEncoding ext subseed md)
    (leBytes (signatureValue ext c subseed pk md) 32) (i := 30) (by omega)
  rw [schnorrSign_eq_signatureLayout ext hc, hbyte]
  exact leBytes_byte30_and_eq_zero (signatureValue_lt ext hc subseed pk md)

theorem schnorrSign_byte63 : (schnorrSign ext c subseed pk md)[63] = 0#8 := by
  have hbyte := signatureLayout_getElem_scalar (nonceEncoding ext subseed md)
    (leBytes (signatureValue ext c subseed pk md) 32) (i := 31) (by omega)
  rw [schnorrSign_eq_signatureLayout ext hc, hbyte]
  exact leBytes_byte31_eq_zero (signatureValue_lt ext hc subseed pk md)

theorem schnorrSign_take :
    (schnorrSign ext c subseed pk md).toList.take 32 = (nonceEncoding ext subseed md).toList := by
  rw [schnorrSign_eq_signatureLayout ext hc, signatureLayout_take]

theorem leInt_schnorrSign_drop :
    leInt ((schnorrSign ext c subseed pk md).toList.drop 32) = signatureValue ext c subseed pk md := by
  have hlt := signatureValue_lt ext hc subseed pk md
  rw [schnorrSign_eq_signatureLayout ext hc, signatureLayout_drop, leInt_leBytes _ _ (by omega)]

end Signing

/-! ## The commands -/

theorem exec_sign (s : State) : exec .sign s =
    .next { s with sig := schnorrSign Config.externals Config.curve s.subseed s.pubkey s.digest } := rfl

theorem exec_verify (s : State) : exec .verify s =
    .next { s with vok := schnorrVerify Config.externals Config.pkTagByte s.pubkey s.digest s.sig } := rfl

/-- Settles O39: the guard of R186 step 6 never subtracts, and the calls of step 5 compute `(r + h · a) mod ORDER`. -/
theorem signResult : Obligations.SignResult := by
  intro s k r renc h a
  refine ⟨rfl, ?sign⟩
  case sign =>
    have hvalue : signatureValue Config.externals Config.curve s.subseed s.pubkey s.digest =
        (r + h * a) % Config.curve.order.toNat := by
      rw [signatureValue, nonceScalar, challengeScalar, privateScalar, scalar64_toNat, scalar64_toNat, scalar64_toNat]
      rfl
    rw [exec_sign, schnorrSign_eq_signatureLayout _ curve_relations, hvalue]
    rfl

/-- Settles O41: the scalar field is below ORDER, and ORDER is at most 2^246. -/
theorem signatureScalarFieldIsCanonical : Obligations.SignatureScalarFieldIsCanonical := fun s =>
  ⟨_, exec_sign s, schnorrSign_byte63 _ curve_relations .., schnorrSign_byte62 _ curve_relations ..⟩

/-- Settles O40: SIGN reads the three input buffers alone. -/
theorem signDependsOnlyOnItsInputs : Obligations.SignDependsOnlyOnItsInputs := by
  intro s t hsubseed hpubkey hdigest
  refine ⟨schnorrSign Config.externals Config.curve s.subseed s.pubkey s.digest, exec_sign s, ?_⟩
  rw [exec_sign, hsubseed, hpubkey, hdigest]

/-! ## Verifying -/

theorem canonicalEncoding_iff (tag : Fin 32) (pk : Vector Byte 32) (sig : Vector Byte 64) :
    canonicalEncoding tag pk sig = true ↔
      pk[tag] &&& 0x80#8 = 0#8 ∧ sig[15] &&& 0x80#8 = 0#8 ∧ sig[62] &&& 0xC0#8 = 0#8 ∧ sig[63] = 0#8 := by
  simp only [canonicalEncoding, Bool.and_eq_true, beq_iff_eq, and_assoc]

/-- Settles O43: an accepted signature has all four encoding bits clear. -/
theorem nonCanonicalSignaturesAreRejected : Obligations.NonCanonicalSignaturesAreRejected := by
  intro Point ext tag pk md sig hset
  refine Bool.eq_false_iff.mpr fun haccepted => ?_
  obtain ⟨hcanonical, -⟩ := (schnorrVerify_iff ext tag pk md sig).mp haccepted
  obtain ⟨htag, h15, h62, h63⟩ := (canonicalEncoding_iff tag pk sig).mp hcanonical
  obtain hset | hset | hset | hset := hset
  · exact hset htag
  · exact hset h15
  · exact hset h62
  · exact hset h63

/-- Settles O42: the five steps of R188 at the machine's externals and tag byte. -/
theorem verifyResult : Obligations.VerifyResult := by
  intro s h sc
  refine ⟨rfl, _, exec_verify s, ?accepts⟩
  case accepts =>
    rw [schnorrVerify_iff, canonicalEncoding_iff, and_assoc, and_assoc, and_assoc]
    rfl

/-! ## The round trip -/

/-- What R190 rests on: with `s = (r + h · a) mod m`, the point `s · G - h · (a · G)` is `r · G`. -/
theorem signature_point_eq {Point : Type} [AddCommGroup Point] {m : Nat} (hm : ∀ T : Point, m • T = 0) (G : Point)
    (r h a : Nat) : ((r + h * a) % m) • G - (h % m) • (a • G) = (r % m) • G := by
  rw [← nsmul_eq_mod_nsmul _ (hm G), ← nsmul_eq_mod_nsmul _ (hm _), ← nsmul_eq_mod_nsmul _ (hm G), add_nsmul,
    mul_nsmul', add_sub_cancel_right]

/-- Settles O44: the signature passes the encoding test, and the point that VERIFY computes is the nonce point. -/
theorem signedDigestsVerify : Obligations.SignedDigestsVerify := by
  intro Point _ G ext c tag subseed pk md hc hannihilates hfixed hdecode hdouble hencode htag hpk
  have hlt := signatureValue_lt_order ext hc subseed pk md
  have hfield : (BitVec.ofNat 256 (signatureValue ext c subseed pk md)).toNat = signatureValue ext c subseed pk md := by
    rw [BitVec.toNat_ofNat, Nat.mod_eq_of_lt (hlt.trans c.order.isLt)]
  rw [schnorrVerify_iff, canonicalEncoding_iff, leInt_schnorrSign_drop ext hc, schnorrSign_take ext hc]
  refine ⟨⟨htag, ?byte15, schnorrSign_byte62 ext hc .., schnorrSign_byte63 ext hc ..⟩,
    (privateScalar ext subseed).toNat • G, ext.fixedBaseMul (nonceScalar ext subseed md), ?key, ?point, rfl⟩
  case byte15 => rw [schnorrSign_byte15 ext hc]; exact hencode _
  case key => rw [hpk, hdecode, privateScalar, scalar64_toNat]
  case point =>
    rw [hdouble _ _ _ (hfield.symm ▸ hlt), hfield, hfixed, Nat.mod_eq_of_lt hlt]
    exact congrArg some (signature_point_eq hannihilates G _ _ _)

end Sys2Proof.Machine

/-! PROOFS. The refusal and the commands that never take it (R210, R211, R215, R216): one step on a refused `CMD` value,
and the step on a legal one, which completes whatever the error record holds. -/

namespace Sys2Proof.Machine

/-! ## A legal value -/

/-- A decoded command is well formed, so it completes and keeps the whole record (R215). -/
theorem exec_keeps_errorRecord_of_decodeCmd {v : Word} {i : Instr} (s : State) (h : decodeCmd v = .command i) :
    ∃ t, exec i s = .next t ∧ t.errorRecord = s.errorRecord :=
  exec_keeps_errorRecord i s (wellFormed_of_decodeCmd h)

/-- Settles O46: the record that the command keeps, field by field. -/
theorem decodedCommandsNeverRaise : Obligations.DecodedCommandsNeverRaise := by
  intro v i s hdecode
  obtain ⟨t, hexec, hrecord⟩ := exec_keeps_errorRecord_of_decodeCmd s hdecode
  obtain ⟨herr, hecode, hecmd⟩ := ErrorRecord.mk.inj hrecord
  exact ⟨t, hexec, herr, hecode, hecmd⟩

/-- The engine is ready for a legal value in every state: nothing is asked of `ERR` (R211). -/
theorem step_legal_completes {s : State} {v : Word} {rest : List HostEvent} {i : Instr}
    (hport : s.port = .write 0x000 8 v :: rest) (hdecode : decodeCmd v = .command i) :
    step s = exec i { s with port := rest, reply := none } ∧ ∃ t, step s = .next t := by
  have hstep := (stepRunsDecodedCommand s v rest i hport hdecode).2
  obtain ⟨t, hexec, _⟩ := exec_keeps_errorRecord_of_decodeCmd { s with port := rest, reply := none } hdecode
  exact ⟨hstep, t, hstep.trans hexec⟩

/-! ## A refused value -/

theorem step_refused {s : State} {v : Word} {rest : List HostEvent} {c : RefuseCode}
    (hport : s.port = .write 0x000 8 v :: rest) (hdecode : decodeCmd v = .refuse c) :
    step s = .next (State.raiseRefused { s with port := rest, reply := none } c v) := by
  rw [step_cmd s v rest hport, issueCommand, hdecode]

/-- Settles O2: the refusal leaves the later moves in the port, so a legal value behind it is served as in any state. -/
theorem refusedCommandIsRecordedOnce : Obligations.RefusedCommandIsRecordedOnce := by
  intro s v rest c hport hdecode
  have hstep := step_refused hport hdecode
  refine ⟨by rw [hstep, raiseRefused_spec], ?ready⟩
  case ready =>
    intro t w i more hnext hrest hlegal
    obtain rfl := Host.Outcome.next.inj (hstep.symm.trans hnext)
    exact step_legal_completes ((raiseRefused_port ..).trans hrest) hlegal

end Sys2Proof.Machine

/-! PROOFS. Reset (R230, R231): the values it gives whichever draw fills the unspecified registers and buffers, from
power-on and as a move of the host. -/

namespace Sys2Proof.Machine

/-- R231's five zeroes, whichever draw the reset takes; the registers and buffers are that draw's and are not spoken of. -/
theorem afterReset_zeroes (n : Nat) :
    (State.afterReset n).cf = false ∧ (State.afterReset n).err = false ∧ (State.afterReset n).vok = false ∧
      (State.afterReset n).ecode = 0#8 ∧ (State.afterReset n).ecmd = 0#64 :=
  ⟨rfl, rfl, rfl, rfl, rfl⟩

theorem afterReset_errorRecord (n : Nat) : (State.afterReset n).errorRecord = .clear := by
  obtain ⟨-, herr, -, hecode, hecmd⟩ := afterReset_zeroes n
  rw [State.errorRecord, herr, hecode, hecmd, ErrorRecord.clear]

/-- Settles O48: reset leaves the clear record, which is sound. -/
theorem resetHasErrorRecord : Obligations.ResetHasErrorRecord := by
  have hclear : State.reset.errorRecord = .clear := afterReset_errorRecord 0
  have hsound : State.reset.errorRecord.Sound := hclear ▸ .clear
  exact (sound_errorRecord_iff State.reset).mp hsound

/-- Settles O51: power-on takes draw 0, and a reset move takes the draw of the state it finds. -/
theorem resetClearsFlagAndStatus : Obligations.ResetClearsFlagAndStatus := by
  refine ⟨afterReset_zeroes 0, fun s rest hport => ?move⟩
  case move =>
    obtain ⟨hcf, herr, hvok, hecode, hecmd⟩ := afterReset_zeroes s.draws
    exact ⟨_, step_reset s rest hport, hcf, herr, hvok, hecode, hecmd, rfl⟩

end Sys2Proof.Machine
